-- ==== Sys2Proof/Word.lean ====
section
/-! DEFINITION. The widths the spec fixes (00_scope.md R9, R11, R12): everything a register, a memory cell, an
instruction word or a field of one holds is a plain bit pattern, bit 0 the least significant. -/

namespace Sys2Proof

/-- A register, a data-memory cell, an instruction word, the program counter: 32 bits (R9). -/
abbrev Word := BitVec 32

/-- A register number, and the shift-amount field: 5 bits (R9). -/
abbrev RegIdx := BitVec 5

/-- The `opcode` and `funct` fields: 6 bits (R9). -/
abbrev Code := BitVec 6

/-- The immediate field: 16 bits (R9). -/
abbrev Imm := BitVec 16

end Sys2Proof
end

