-- ==== Sys2Proof/Syntax.lean ====
section
/-! DEFINITION. The instructions: one constructor per row of the opcode table (30_encoding.md R64, R67). Operands stand
in the order of their fields in the word (R61), and the fields an instruction ignores (`shamt`, and `rs` of `lui`, R65)
are kept, so that no bit of a word is lost. -/

namespace Sys2Proof

/-- An instruction of the core: the nine of R2 and the class of every other word. -/
inductive Instr where
  /-- `add rd, rs, rt` (R120). -/
  | add (rs rt rd shamt : RegIdx)
  /-- `and rd, rs, rt` (R121). -/
  | and (rs rt rd shamt : RegIdx)
  /-- `slt rd, rs, rt` (R122). -/
  | slt (rs rt rd shamt : RegIdx)
  /-- `beq rs, rt, disp`, the displacement counted in words (R150). -/
  | beq (rs rt : RegIdx) (imm : Imm)
  /-- `addi rt, rs, imm` (R130). -/
  | addi (rs rt : RegIdx) (imm : Imm)
  /-- `ori rt, rs, imm` (R131). -/
  | ori (rs rt : RegIdx) (imm : Imm)
  /-- `lui rt, imm`; `rs` is extracted and ignored (R132, R65). -/
  | lui (rs rt : RegIdx) (imm : Imm)
  /-- `lw rt, imm(rs)` (R140). -/
  | lw (rs rt : RegIdx) (imm : Imm)
  /-- `sw rt, imm(rs)` (R141). -/
  | sw (rs rt : RegIdx) (imm : Imm)
  /-- Any word that matches none of the nine rows (R67, R160). -/
  | unsupported (word : Word)
  deriving DecidableEq, Repr

end Sys2Proof
end

