-- ==== Sys2Proof/Decode.lean ====
section
/-! DEFINITION. The field decoder (30_encoding.md R61), the opcode map (R64) as a table of mask and match, the decoder,
which is total on all 2^32 words (R69), and the encoder written from the same map. -/

namespace Sys2Proof

/-- The seven fields of an instruction word (R61); `imm` overlaps `rd`, `shamt` and `funct`. -/
structure Fields where
  opcode : Code
  rs     : RegIdx
  rt     : RegIdx
  rd     : RegIdx
  shamt  : RegIdx
  funct  : Code
  imm    : Imm
  deriving DecidableEq, Repr

/-- The field decoder: fixed bit-position slicing, the same for every word (R61, R81). -/
def fields (w : Word) : Fields :=
  { opcode := w.extractLsb' 26 6
    rs     := w.extractLsb' 21 5
    rt     := w.extractLsb' 16 5
    rd     := w.extractLsb' 11 5
    shamt  := w.extractLsb' 6 5
    funct  := w.extractLsb' 0 6
    imm    := w.extractLsb' 0 16 }

/-- The nine matched selections of R64. -/
inductive Selection where
  | add | and | slt | beq | addi | ori | lui | lw | sw
  deriving DecidableEq, Repr

/-- One row of the table of R64. -/
structure TableRow where
  selects : Selection
  mask    : Word
  pattern : Word
  deriving DecidableEq, Repr

/-- "A word `w` selects a row iff `(w & mask) = match`" (R64). -/
def TableRow.holds (r : TableRow) (w : Word) : Bool := w &&& r.mask == r.pattern

/-- The opcode map, row for row (R64). -/
def opcodeTable : List TableRow :=
  [ ⟨.add,  0xFC00003F#32, 0x00000020#32⟩,
    ⟨.and,  0xFC00003F#32, 0x00000024#32⟩,
    ⟨.slt,  0xFC00003F#32, 0x0000002A#32⟩,
    ⟨.beq,  0xFC000000#32, 0x10000000#32⟩,
    ⟨.addi, 0xFC000000#32, 0x20000000#32⟩,
    ⟨.ori,  0xFC000000#32, 0x34000000#32⟩,
    ⟨.lui,  0xFC000000#32, 0x3C000000#32⟩,
    ⟨.lw,   0xFC000000#32, 0x8C000000#32⟩,
    ⟨.sw,   0xFC000000#32, 0xAC000000#32⟩ ]

/-- The first row of a table that a word matches; none is the fall-through (R66). -/
def selectIn (table : List TableRow) (w : Word) : Option Selection :=
  (table.find? (·.holds w)).map (·.selects)

/-- The selection the opcode map makes; none for the unmatched words (R67). -/
def select (w : Word) : Option Selection := selectIn opcodeTable w

/-- The decoder, total: an unmatched word is `unsupported`, not an error (R67, R69). -/
def decode (w : Word) : Instr :=
  let f := fields w
  match select w with
  | some .add  => .add f.rs f.rt f.rd f.shamt
  | some .and  => .and f.rs f.rt f.rd f.shamt
  | some .slt  => .slt f.rs f.rt f.rd f.shamt
  | some .beq  => .beq f.rs f.rt f.imm
  | some .addi => .addi f.rs f.rt f.imm
  | some .ori  => .ori f.rs f.rt f.imm
  | some .lui  => .lui f.rs f.rt f.imm
  | some .lw   => .lw f.rs f.rt f.imm
  | some .sw   => .sw f.rs f.rt f.imm
  | none       => .unsupported w

/-- A word in the register view of R62: opcode 0x00 and the given function code. -/
def encodeR (rs rt rd shamt : RegIdx) (funct : Code) : Word :=
  0x00#6 ++ rs ++ rt ++ rd ++ shamt ++ funct

/-- A word in the immediate view of R62. -/
def encodeI (opcode : Code) (rs rt : RegIdx) (imm : Imm) : Word :=
  opcode ++ rs ++ rt ++ imm

/-- The encoder: the word of a well-formed instruction (R61, R64). -/
def encode : Instr → Word
  | .add rs rt rd shamt => encodeR rs rt rd shamt 0x20#6
  | .and rs rt rd shamt => encodeR rs rt rd shamt 0x24#6
  | .slt rs rt rd shamt => encodeR rs rt rd shamt 0x2A#6
  | .beq rs rt imm      => encodeI 0x04#6 rs rt imm
  | .addi rs rt imm     => encodeI 0x08#6 rs rt imm
  | .ori rs rt imm      => encodeI 0x0D#6 rs rt imm
  | .lui rs rt imm      => encodeI 0x0F#6 rs rt imm
  | .lw rs rt imm       => encodeI 0x23#6 rs rt imm
  | .sw rs rt imm       => encodeI 0x2B#6 rs rt imm
  | .unsupported w      => w

/-- The instruction word whose low `nbits` bits are those of `w` and whose other bits are zero: one 32-bit number, with
bit 0 the least significant (R11, R48, R60). -/
def tableWord (nbits w : Nat) : Word := BitVec.ofNat 32 (w % 2 ^ nbits)

/-- What the decoder reads from a word given in the opcode table's bit numbering. It never refuses (R69). -/
def decodeTableWord (nbits w : Nat) : Option Instr := some (decode (tableWord nbits w))

end Sys2Proof
end

