-- ==== Sys2Proof/Machine/Signals.lean ====
section
/-! DEFINITION. The signals that live inside one cycle (40_datapath.md R82, R88; 10_state.md R35): the control word and
the ALU's outputs. None of them is state. They are named enumerations because the spec gives no numbers (R70). -/

namespace Sys2Proof.Machine

/-- ALU-source selector: what operand B is (R82, R87). -/
inductive AluSrc where
  | register
  | signExtendedImm
  | zeroExtendedImm
  deriving DecidableEq, Repr

/-- ALU operation selector (R82). -/
inductive AluOp where
  | add
  | and
  | setLessThan
  | or
  | shiftLeft16
  | equal
  deriving DecidableEq, Repr

/-- The control word (R82). -/
structure ControlWord where
  regWrite : Bool
  destIsRd : Bool
  aluSrc   : AluSrc
  aluOp    : AluOp
  memRead  : Bool
  memWrite : Bool
  branch   : Bool
  deriving DecidableEq, Repr

/-- The two outputs of the ALU (R88). -/
structure AluOut where
  result : Word
  equal  : Bool
  deriving DecidableEq, Repr

end Sys2Proof.Machine
end

