-- ==== Sys2Proof/Config.lean ====
section
/-! DEFINITION. What the spec leaves to the configuration (00_scope.md R10) and the two values it leaves open
(40_datapath.md R95). The parameters are plain data carried in the state, so that every statement about every state
holds for every parameter value. -/

namespace Sys2Proof

/-- The parameters of one build and one run (R10). -/
structure Params where
  /-- `DMEM_WORDS`, the number of data-memory cells; legal values are 1 to 2^32 (R10, decision D3). -/
  dmemWords : Nat
  /-- `IMAGE`, the instruction words at addresses 0, 1, 2, … (R10, R51); `IMEM_WORDS` is its length. -/
  image     : List Word
  deriving DecidableEq, Repr

/-- The external seeds, applied before cycle 0 (R10, R202). -/
structure Seeds where
  /-- `INIT_REGS`; its entry 0 is ignored, register 0 cannot be seeded (R202). -/
  regs : Vector Word 32
  /-- `INIT_DMEM`, the cells that are not zero: address and value, addresses rising. -/
  dmem : List (Nat × Word)
  deriving DecidableEq, Repr

/-- No seeding: all registers and all data cells zero (R10: "all zero when absent"). -/
def Seeds.none : Seeds := { regs := Vector.replicate 32 0#32, dmem := [] }

/-- The parameters `State.reset` carries. `DMEM_WORDS = 2^32` reproduces the reference hardware (90_conflicts.md C2).
DESIGN CHOICE, unsafe: the spec leaves the number open (assumption 2); no statement rests on it. No image is loaded
(assumption 4). -/
def Params.reference : Params := { dmemWords := 2 ^ 32, image := [] }

/-- FREE VALUE (assumption 6): the ALU's `result` under `aluOp = Equal`, which the spec does not give (R95, U1). -/
opaque Config.resultUnderEqual : Word → Word → Word

/-- FREE VALUE (assumption 6): the ALU's `equal` under every other operation, which the spec does not give (R95, U2). -/
opaque Config.equalOutsideEqual : Machine.AluOp → Word → Word → Bool

end Sys2Proof
end

