-- ==== Sys2Proof/Machine/Flags.lean ====
section
/-! DEFINITION. The ALU: its six operations and its one flag `equal`, which is a signal of the cycle and never stored
(40_datapath.md R88 to R95, 10_state.md R30). There is no carry, overflow or other flag (00_scope.md R12). -/

namespace Sys2Proof.Machine

/-- `Add`: addition modulo 2^32, wrapping silently (R88). -/
def aluAdd (a b : Word) : Word := a + b

/-- `And`, bitwise (R89). -/
def aluAnd (a b : Word) : Word := a &&& b

/-- `Or`, bitwise (R90). -/
def aluOr (a b : Word) : Word := a ||| b

/-- `SetLessThan`: the comparison of the two operands as signed integers, not the sign of a difference (R91). -/
def aluSetLessThan (a b : Word) : Word := if a.toInt < b.toInt then 1#32 else 0#32

/-- `ShiftLeft16`, of operand B alone (R92). -/
def aluShiftLeft16 (b : Word) : Word := b <<< 16

/-- The flag `equal` under `Equal`: all 32 bits agree (R93). -/
def aluEqual (a b : Word) : Bool := a == b

/-- The ALU as one block (R88). `result` under `Equal` and `equal` under the other operations are free values: the spec
gives neither and no state may depend on them (R95). -/
def alu (op : AluOp) (a b : Word) : AluOut :=
  match op with
  | .add         => ⟨aluAdd a b, Config.equalOutsideEqual .add a b⟩
  | .and         => ⟨aluAnd a b, Config.equalOutsideEqual .and a b⟩
  | .setLessThan => ⟨aluSetLessThan a b, Config.equalOutsideEqual .setLessThan a b⟩
  | .or          => ⟨aluOr a b, Config.equalOutsideEqual .or a b⟩
  | .shiftLeft16 => ⟨aluShiftLeft16 b, Config.equalOutsideEqual .shiftLeft16 a b⟩
  | .equal       => ⟨Config.resultUnderEqual a b, aluEqual a b⟩

end Sys2Proof.Machine
end

