-- ==== Sys2Proof/Machine/Operands.lean ====
section
/-! DEFINITION. The operand forms: the two extensions of the immediate (00_scope.md R13, 30_encoding.md R63) and the
operand-B multiplexer (40_datapath.md R87). -/

namespace Sys2Proof.Machine

/-- `sext_32`: widening that preserves the sign (R13). -/
def sext32 (v : Imm) : Word := v.signExtend 32

/-- `zext_32`: widening that pads with zeros (R13). -/
def zext32 (v : Imm) : Word := v.setWidth 32

/-- Operand B of the ALU: `b` is the second register value `x[rt]` (R87). -/
def operandB (src : AluSrc) (b : Word) (imm : Imm) : Word :=
  match src with
  | .register        => b
  | .signExtendedImm => sext32 imm
  | .zeroExtendedImm => zext32 imm

end Sys2Proof.Machine
end

