-- ==== Sys2Proof/Machine/State.lean ====
section
/-! DEFINITION. The state (10_state.md R20, R37), its value after reset (R36, R200), and the reasons a machine stops. -/

namespace Sys2Proof.Machine

/-- The fatal conditions of 60_exceptions.md R171. A cycle that raises one commits nothing and records it in
`State.halted` (R175); it is not an `Outcome.fault`, because R101 says what state the step returns (assumption 1). -/
inductive Fault where
  /-- Raised by `lw` and `sw` when their address, recorded here, is not below `DMEM_WORDS` (R174). Safe: the state stays
  as it was and the machine does nothing more; the no-commit reading is the spec's decision D5 (assumption 9). -/
  | addressOutOfRange (addr : Word)
  /-- Raised by the fetch of a cycle whose pc, recorded here, lies outside the image (R177). Safe: the spec's decision D6
  stops where hardware may go on (assumption 10). -/
  | fetchOutOfImage (pc : Word)
  deriving DecidableEq, Repr

/-- Why a step would have no meaning. -/
inductive Refusal where
  /-- Raised by an arm of `exec` whose instruction has no meaning yet: no arm does so. Safe. -/
  | notModelled (mnemonic : String)
  deriving DecidableEq, Repr

/-- Data memory (R33): the cells that do not hold `unlistedCell`, as address and 32-bit value, addresses strictly rising.
The cell is a whole word because the hardware has no bytes (20_memory.md R48; assumption 3). -/
abbrev Memory := List (Nat × Word)

/-- What a cell that the list does not name reads as: the reset contents the spec gives, zero (R36). -/
def unlistedCell : Word := 0#32

/-- The machine: the three mutable elements of R20, the model's mark of R37, and the parameters of R10, which no step
changes (assumption 2). -/
structure State where
  /-- The register file, cells 0 to 31 (R22); cell 0 is never read (R23). -/
  regs   : Vector Word 32
  /-- The program counter, a word index (R27). -/
  pc     : Word
  /-- Data memory (R33). -/
  dmem   : Memory
  /-- The model's mark `halted` (R37): none while the machine runs. -/
  halted : Option Fault
  /-- The parameters `DMEM_WORDS` and `IMAGE` (R10): not hardware state. -/
  params : Params
  deriving DecidableEq, Repr

/-- The state right after reset, without seeds (R36, R200): pc 0, every register and every data cell zero, not halted.
Its parameters are `Params.reference`. -/
def State.reset : State :=
  { regs := Vector.replicate 32 0#32, pc := 0#32, dmem := [], halted := none, params := Params.reference }

end Sys2Proof.Machine
end

