-- ==== Sys2Proof/Machine/Ops.lean ====
section
/-! DEFINITION. The named operations over the state: register ports, data-memory ports, fetch, the pc unit, the atomic
commit, halting, and loading a machine before cycle 0. -/

namespace Sys2Proof.Machine

/-! ### Data memory -/

/-- The content of cell `a` (20_memory.md R45). -/
def Memory.read : Memory → Nat → Word
  | [], _ => unlistedCell
  | (b, v) :: rest, a => if a = b then v else Memory.read rest a

/-- List cell `a` with the value `v`, in its place. -/
def Memory.insert : Memory → Nat → Word → Memory
  | [], a, v => [(a, v)]
  | (b, u) :: rest, a, v =>
    if a < b then (a, v) :: (b, u) :: rest
    else if a = b then (a, v) :: rest
    else (b, u) :: Memory.insert rest a v

/-- Replace the whole cell `a` by `v` (R47); a cell that gets the unlisted value leaves the list. -/
def Memory.write (m : Memory) (a : Nat) (v : Word) : Memory :=
  if v = unlistedCell then m.filter (fun e => e.1 != a) else Memory.insert m a v

/-- The canonical form: addresses strictly rising, no entry equal to the unlisted value. -/
def Memory.wf : Memory → Bool
  | [] => true
  | (a, v) :: rest => v != unlistedCell && rest.all (fun e => decide (a < e.1)) && Memory.wf rest

/-- Every listed cell has an address below `n`. -/
def Memory.below (m : Memory) (n : Nat) : Bool := m.all (fun e => decide (e.1 < n))

/-! ### Register file -/

/-- A read port: register 0 always reads as zero (10_state.md R23, R25). -/
def State.readReg (s : State) (i : RegIdx) : Word :=
  if i = 0#5 then 0#32 else s.regs[i.toNat]'i.isLt

/-- The write port: a write to register 0 is accepted and discarded (R23, R26). -/
def State.writeReg (s : State) (i : RegIdx) (v : Word) : State :=
  if i = 0#5 then s else { s with regs := s.regs.set i.toNat v i.isLt }

/-! ### Data-memory ports -/

/-- An address exists iff it is below `DMEM_WORDS` (20_memory.md R43). -/
def State.inRange (s : State) (addr : Word) : Bool := decide (addr.toNat < s.params.dmemWords)

/-- `MemRead(addr, 32)` (00_scope.md R14, 20_memory.md R45). -/
def State.memRead (s : State) (addr : Word) : Except Fault Word :=
  if s.inRange addr then .ok (s.dmem.read addr.toNat) else .error (.addressOutOfRange addr)

/-- The staging half of `MemWrite(addr, 32, v)` (00_scope.md R14): the write to commit, or the condition. -/
def State.stageMem (s : State) (addr v : Word) : Except Fault (Word × Word) :=
  if s.inRange addr then .ok (addr, v) else .error (.addressOutOfRange addr)

/-- The committed write of one cell (20_memory.md R47). -/
def State.writeMem (s : State) (addr v : Word) : State := { s with dmem := s.dmem.write addr.toNat v }

/-- The data address of `lw` and `sw`: the full 32-bit sum, a word index (20_memory.md R42). -/
def State.address (s : State) (rs : RegIdx) (imm : Imm) : Word := aluAdd (s.readReg rs) (sext32 imm)

/-! ### Instruction port and pc unit -/

/-- `Fetch(a)`: the image's word at `a`, or the spec's own condition outside it (20_memory.md R51, R52). -/
def State.fetchAt (s : State) (a : Word) : Except Fault Word :=
  match s.params.image[a.toNat]? with
  | some w => .ok w
  | none   => .error (.fetchOutOfImage a)

/-- The word the instruction port delivers in this cycle (40_datapath.md R103). -/
def State.fetch (s : State) : Except Fault Word := s.fetchAt s.pc

/-- The pc unit (40_datapath.md R99): additions wrap modulo 2^32 (10_state.md R29), the displacement is not scaled. -/
def nextPc (pc : Word) (imm : Imm) (branch equal : Bool) : Word :=
  if branch && equal then pc + 1#32 + sext32 imm else pc + 1#32

/-! ### Commit and halt -/

/-- What one cycle stages: at most one register write, at most one memory write, always the pc (40_datapath.md R100). -/
structure Staged where
  reg    : Option (RegIdx × Word) := none
  mem    : Option (Word × Word) := none
  nextPc : Word
  deriving DecidableEq, Repr

/-- A staged register write applied; nothing where none is staged. -/
def State.applyReg (s : State) : Option (RegIdx × Word) → State
  | some (d, v) => s.writeReg d v
  | none        => s

/-- A staged memory write applied; nothing where none is staged. -/
def State.applyMem (s : State) : Option (Word × Word) → State
  | some (a, v) => s.writeMem a v
  | none        => s

/-- The commit: all staged writes of a cycle together (40_datapath.md R100). -/
def State.commit (s : State) (st : Staged) : State :=
  { (s.applyReg st.reg).applyMem st.mem with pc := st.nextPc }

/-- Taking a fatal condition (60_exceptions.md R175): nothing commits, the mark is set. There is no handler, no saved
pc and no return (R170, R180, R181). -/
def State.halt (s : State) (f : Fault) : State := { s with halted := some f }

/-- The end of a cycle: the commit of what it staged, or the halt it raised. -/
def State.conclude (s : State) (r : Except Fault Staged) : Host.Outcome State Fault Refusal :=
  match r with
  | .ok st   => .next (s.commit st)
  | .error f => .next (s.halt f)

/-! ### Before cycle 0 -/

/-- Which parameters are legal: 1 to 2^32 data cells (00_scope.md R10). -/
def Params.valid (p : Params) : Bool := decide (1 ≤ p.dmemWords) && decide (p.dmemWords ≤ 2 ^ 32)

/-- Which seeds are legal: distinct cells, all below `DMEM_WORDS` (70_reset_and_hazards.md R202). -/
def Seeds.valid (sd : Seeds) (p : Params) : Bool := Memory.wf sd.dmem && Memory.below sd.dmem p.dmemWords

/-- The machine at cycle 0, with its image in place and its seeds applied (R200, R202, R204); none where parameters or
seeds are not legal. The pc and register 0 are not seeded. -/
def State.boot (p : Params) (sd : Seeds) : Option State :=
  if Params.valid p && Seeds.valid sd p then
    some { State.reset with regs := sd.regs.set 0 0#32, dmem := sd.dmem, params := p }
  else none

/-- An image with the word `w` at address `n`, every other word kept; the gap that a short image leaves is filled with
zero words. For the host's `withFetchWord` only (assumption 5). -/
def placeWord : List Word → Nat → Word → List Word
  | [], 0, w => [w]
  | [], n + 1, w => 0#32 :: placeWord [] n w
  | _ :: rest, 0, w => w :: rest
  | v :: rest, n + 1, w => v :: placeWord rest n w

end Sys2Proof.Machine
end

