-- ==== Sys2Proof/Machine/Branch.lean ====
section
/-! DEFINITION. The one control transfer (44_branch.md R150, R151). -/

namespace Sys2Proof.Machine

/-- `beq rs, rt, disp` (R150): no delay slot, the displacement counts words. -/
def execBeq (rs rt : RegIdx) (imm : Imm) (s : State) : Host.Outcome State Fault Refusal :=
  s.conclude (.ok { nextPc := nextPc s.pc imm true (aluEqual (s.readReg rs) (s.readReg rt)) })

end Sys2Proof.Machine
end

