-- ==== Sys2Proof/Machine/Immediate.lean ====
section
/-! DEFINITION. The register-immediate instructions (42_immediate_alu.md R130 to R133). -/

namespace Sys2Proof.Machine

/-- `addi rt, rs, imm`, the immediate sign-extended (R130). -/
def execAddi (rs rt : RegIdx) (imm : Imm) (s : State) : Host.Outcome State Fault Refusal :=
  s.conclude (.ok { reg := some (rt, aluAdd (s.readReg rs) (sext32 imm)), nextPc := s.pc + 1#32 })

/-- `ori rt, rs, imm`, the immediate zero-extended (R131). -/
def execOri (rs rt : RegIdx) (imm : Imm) (s : State) : Host.Outcome State Fault Refusal :=
  s.conclude (.ok { reg := some (rt, aluOr (s.readReg rs) (zext32 imm)), nextPc := s.pc + 1#32 })

/-- `lui rt, imm`; the `rs` field is ignored (R132). -/
def execLui (_rs rt : RegIdx) (imm : Imm) (s : State) : Host.Outcome State Fault Refusal :=
  s.conclude (.ok { reg := some (rt, aluShiftLeft16 (zext32 imm)), nextPc := s.pc + 1#32 })

end Sys2Proof.Machine
end

