-- ==== Sys2Proof/Machine/LoadStore.lean ====
section
/-! DEFINITION. Load and store of one word (43_load_store.md R140 to R142). -/

namespace Sys2Proof.Machine

/-- `lw rt, imm(rs)` (R140). The access is made, and its bound checked, for `rt = 0` too. -/
def execLw (rs rt : RegIdx) (imm : Imm) (s : State) : Host.Outcome State Fault Refusal :=
  s.conclude ((s.memRead (s.address rs imm)).map fun v => { reg := some (rt, v), nextPc := s.pc + 1#32 })

/-- `sw rt, imm(rs)`: the stored value is `x[rt]` (R141, decision D8). -/
def execSw (rs rt : RegIdx) (imm : Imm) (s : State) : Host.Outcome State Fault Refusal :=
  s.conclude ((s.stageMem (s.address rs imm) (s.readReg rt)).map fun w => { mem := some w, nextPc := s.pc + 1#32 })

end Sys2Proof.Machine
end

