-- ==== Sys2Proof/Machine/RType.lean ====
section
/-! DEFINITION. The register-register instructions (41_rtype_alu.md R120 to R123). `shamt` is ignored (R65). -/

namespace Sys2Proof.Machine

/-- `add rd, rs, rt` (R120). -/
def execAdd (rs rt rd _shamt : RegIdx) (s : State) : Host.Outcome State Fault Refusal :=
  s.conclude (.ok { reg := some (rd, aluAdd (s.readReg rs) (s.readReg rt)), nextPc := s.pc + 1#32 })

/-- `and rd, rs, rt` (R121). -/
def execAnd (rs rt rd _shamt : RegIdx) (s : State) : Host.Outcome State Fault Refusal :=
  s.conclude (.ok { reg := some (rd, aluAnd (s.readReg rs) (s.readReg rt)), nextPc := s.pc + 1#32 })

/-- `slt rd, rs, rt` (R122). -/
def execSlt (rs rt rd _shamt : RegIdx) (s : State) : Host.Outcome State Fault Refusal :=
  s.conclude (.ok { reg := some (rd, aluSetLessThan (s.readReg rs) (s.readReg rt)), nextPc := s.pc + 1#32 })

end Sys2Proof.Machine
end

