-- ==== Sys2Proof/Machine/Unmatched.lean ====
section
/-! DEFINITION. Every other word (45_unmatched.md R160): a no-op that advances the pc. -/

namespace Sys2Proof.Machine

/-- An unmatched word: nothing but `pc + 1` (R160); not an error (R173). -/
def execUnsupported (_word : Word) (s : State) : Host.Outcome State Fault Refusal :=
  s.conclude (.ok { nextPc := s.pc + 1#32 })

end Sys2Proof.Machine
end

