-- ==== Sys2Proof/Machine/Step.lean ====
section
/-! DEFINITION. One cycle (40_datapath.md R101): nothing while halted, else fetch, decode, execute. -/

namespace Sys2Proof.Machine

/-- One step is one cycle (00_scope.md R15). A halted machine stays as it is (10_state.md R37); the fetch check comes
before the decoder (60_exceptions.md R179). -/
def step (s : State) : Host.Outcome State Fault Refusal :=
  match s.halted with
  | some _ => .next s
  | none =>
    match s.fetch with
    | .error f => .next (s.halt f)
    | .ok w    => exec (decode w) s

/-- The state with a given word where the next step fetches its instruction: the image holds it at the pc, and the
machine is not halted (assumption 5). Instruction memory is loaded from outside the machine (R51, R204), so this stands
for the load. -/
def State.withFetchWord (s : State) (nbits w : Nat) : State :=
  { s with
    halted := none
    params := { s.params with image := placeWord s.params.image s.pc.toNat (tableWord nbits w) } }

end Sys2Proof.Machine
end

