-- ==== Sys2Proof/Machine/Control.lean ====
section
/-! DEFINITION. The control unit: a fixed lookup on `(opcode, funct)` and nothing else (40_datapath.md R82 to R84). -/

namespace Sys2Proof.Machine

/-- The disabled control word, for every unmatched pair (R84). -/
def disabledWord : ControlWord := ⟨false, false, .register, .add, false, false, false⟩

/-- The rows with opcode 0x00, chosen by `funct` (R83). -/
def controlR (funct : Code) : ControlWord :=
  if funct = 0x20#6 then ⟨true, true, .register, .add, false, false, false⟩
  else if funct = 0x24#6 then ⟨true, true, .register, .and, false, false, false⟩
  else if funct = 0x2A#6 then ⟨true, true, .register, .setLessThan, false, false, false⟩
  else disabledWord

/-- The lookup table of R83; a dash in its `destIsRd` column is false here, as the rule allows. -/
def controlUnit (opcode funct : Code) : ControlWord :=
  if opcode = 0x00#6 then controlR funct
  else if opcode = 0x08#6 then ⟨true, false, .signExtendedImm, .add, false, false, false⟩
  else if opcode = 0x0D#6 then ⟨true, false, .zeroExtendedImm, .or, false, false, false⟩
  else if opcode = 0x0F#6 then ⟨true, false, .zeroExtendedImm, .shiftLeft16, false, false, false⟩
  else if opcode = 0x23#6 then ⟨true, false, .signExtendedImm, .add, true, false, false⟩
  else if opcode = 0x2B#6 then ⟨false, false, .signExtendedImm, .add, false, true, false⟩
  else if opcode = 0x04#6 then ⟨false, false, .register, .equal, false, false, true⟩
  else disabledWord

end Sys2Proof.Machine
end

