-- ==== Sys2Proof/Machine/Datapath.lean ====
section
/-! DEFINITION. The datapath as the spec draws it (40_datapath.md R80, R101): field decoder, control unit, register file,
operand-B multiplexer, ALU, data memory, write-back multiplexer, pc unit and commit, one function for every word. `step`
reaches the same result through the decoded instruction; that the two agree is a statement of the certificate. -/

namespace Sys2Proof.Machine

/-- The write-back multiplexer (R97): `memRead` selects the memory value. -/
def writeBack (cw : ControlWord) (mdata result : Word) : Word := if cw.memRead then mdata else result

/-- The destination register number (R98). -/
def destReg (cw : ControlWord) (f : Fields) : RegIdx := if cw.destIsRd then f.rd else f.rt

/-- The control word of an instruction word (R82). -/
def controlOf (w : Word) : ControlWord := controlUnit (fields w).opcode (fields w).funct

/-- The ALU outputs of a cycle that executes `w` (R86 to R93). -/
def State.aluOf (s : State) (w : Word) : AluOut :=
  alu (controlOf w).aluOp (s.readReg (fields w).rs)
    (operandB (controlOf w).aluSrc (s.readReg (fields w).rt) (fields w).imm)

/-- The value that a cycle that executes `w` puts on the register file's write port (R97). -/
def State.wdataOf (s : State) (w : Word) : Word :=
  writeBack (controlOf w) (s.dmem.read (s.aluOf w).result.toNat) (s.aluOf w).result

/-- The cycle raises `AddressOutOfRange`: an enabled access beyond the bound (R101, 20_memory.md R44). -/
def State.badAccess (s : State) (w : Word) : Bool :=
  ((controlOf w).memRead || (controlOf w).memWrite) && !s.inRange (s.aluOf w).result

/-- What a cycle that executes `w` stages (R101). -/
def State.stagedBy (s : State) (w : Word) : Staged :=
  { reg    := if (controlOf w).regWrite then some (destReg (controlOf w) (fields w), s.wdataOf w) else none
    mem    := if (controlOf w).memWrite then some ((s.aluOf w).result, s.readReg (fields w).rt) else none
    nextPc := nextPc s.pc (fields w).imm (controlOf w).branch (s.aluOf w).equal }

/-- The datapath on the word `w` (R101). -/
def State.datapath (s : State) (w : Word) : State :=
  if s.badAccess w then s.halt (.addressOutOfRange (s.aluOf w).result) else s.commit (s.stagedBy w)

/-- The whole cycle (R101, `step(S)`). -/
def State.cycle (s : State) : State :=
  match s.halted with
  | some _ => s
  | none =>
    match s.fetch with
    | .error f => s.halt f
    | .ok w    => s.datapath w

end Sys2Proof.Machine
end

