-- ==== Sys2Proof/WellFormed.lean ====
section
/-! DEFINITION. Which instruction terms stand for a word. Every operand field is as wide as its type, so only one check is
left: `unsupported` holds a word that no row of the opcode map matches (30_encoding.md R67). -/

namespace Sys2Proof

/-- The word matches no row of R64 (R67). -/
def unmatched (w : Word) : Bool := (select w).isNone

/-- An instruction term that the decoder can give. -/
def Instr.wf : Instr → Bool
  | .unsupported w => unmatched w
  | _ => true

end Sys2Proof
end

