-- ==== Sys2Proof/Machine/Inspect.lean ====
section
/-! DEFINITION. What the outside sees: the inspection interface (40_datapath.md R104) and the optional diagnostic output
(R106). Nothing here feeds the datapath. -/

namespace Sys2Proof.Machine

/-- `readRegister(index)`, defined for 0 to 31 only (R104, decision D20). -/
def State.readRegister (s : State) (index : Nat) : Option Word :=
  if index ≤ 31 then some (s.readReg (BitVec.ofNat 5 index)) else none

/-- `readMemory(address)`, defined below `DMEM_WORDS` only (R104, decision D20). -/
def State.readMemory (s : State) (address : Nat) : Option Word :=
  if address < s.params.dmemWords then some (s.dmem.read address) else none

/-- The diagnostic output `unsupported` of the cycle that starts in this state: it executes an unmatched word (R106). -/
def State.unsupportedSignal (s : State) : Bool :=
  match s.halted with
  | some _ => false
  | none =>
    match s.fetch with
    | .error _ => false
    | .ok w    => unmatched w

end Sys2Proof.Machine
end

