-- ==== Sys2Proof/Safety.lean ====
section
/-! DEFINITION. The words in which statements are made: a running machine, the state invariants, frames, runs. -/

namespace Sys2Proof.Machine

/-- No fatal condition has been raised (10_state.md R37). -/
def State.Running (s : State) : Prop := s.halted = none

/-- What every state of a legally loaded machine satisfies: the cell behind register 0 holds zero (R23), data memory is in
its canonical form and lists only cells that exist (R33), and the parameters are legal (R10). -/
structure State.Inv (s : State) : Prop where
  cellZero    : s.regs[0] = 0#32
  memWf       : s.dmem.wf = true
  memBelow    : s.dmem.below s.params.dmemWords = true
  paramsValid : Params.valid s.params = true

/-- What the mark says is so (60_exceptions.md R174, R175, R177, R180): the pc still addresses the offending instruction,
and the recorded value is the one that was out of range. -/
def State.HaltPrecise (s : State) : Prop :=
  match s.halted with
  | none => True
  | some (.fetchOutOfImage p) => p = s.pc ∧ s.params.image.length ≤ s.pc.toNat
  | some (.addressOutOfRange a) =>
    s.params.dmemWords ≤ a.toNat ∧
    ∃ w rs rt imm, s.fetch = .ok w ∧ (decode w = .lw rs rt imm ∨ decode w = .sw rs rt imm) ∧ a = s.address rs imm

/-- Every register but `d` reads as before. -/
def RegsKeptBut (d : RegIdx) (s t : State) : Prop := ∀ i, i ≠ d → t.readReg i = s.readReg i

/-- Every register reads as before. -/
def RegsKept (s t : State) : Prop := ∀ i, t.readReg i = s.readReg i

/-- Every data cell reads as before. -/
def MemKept (s t : State) : Prop := ∀ a, t.dmem.read a = s.dmem.read a

/-- Every data cell but the one at `addr` reads as before. -/
def MemKeptBut (addr : Nat) (s t : State) : Prop := ∀ a, a ≠ addr → t.dmem.read a = s.dmem.read a

/-- The mark, the image and `DMEM_WORDS` are as before. -/
def MarkAndParamsKept (s t : State) : Prop := t.halted = s.halted ∧ t.params = s.params

/-- `signed(v)` (00_scope.md R12). -/
def signed (v : Word) : Int := if v.toNat < 2 ^ 31 then (v.toNat : Int) else (v.toNat : Int) - 2 ^ 32

/-- A sum with a signed number, modulo 2^32, on the integers (00_scope.md R12). -/
def sumMod (a : Word) (d : Int) : Nat := (((a.toNat : Int) + d) % 2 ^ 32).toNat

/-- The words of one row of 30_encoding.md R64 decode to one instruction form, its operands the fields of R61, and have
one control word. -/
def RowMeans (mask pattern : Word) (form : Fields → Instr) (cw : ControlWord) : Prop :=
  ∀ w : Word, w &&& mask = pattern → decode w = form (fields w) ∧ controlOf w = cw

/-- The unmatched encodings as 30_encoding.md R67 lists them. -/
def UnmatchedByFields (w : Word) : Prop :=
  ((fields w).opcode = 0x00#6 ∧ (fields w).funct ∉ ([0x20#6, 0x24#6, 0x2A#6] : List Code)) ∨
  (fields w).opcode ∉ ([0x00#6, 0x04#6, 0x08#6, 0x0D#6, 0x0F#6, 0x23#6, 0x2B#6] : List Code)

/-- The instruction reaches data memory: it is a `lw` or a `sw` with these operands (43_load_store.md R142). -/
def IsAccess (i : Instr) (rs rt : RegIdx) (imm : Imm) : Prop := i = .lw rs rt imm ∨ i = .sw rs rt imm

/-- The instruction is a `beq` that is taken in this state, with this displacement (44_branch.md R150). -/
def IsTaken (i : Instr) (s : State) (imm : Imm) : Prop :=
  ∃ rs rt, i = .beq rs rt imm ∧ s.readReg rs = s.readReg rt

/-- The next cycle executes this word: the machine runs and fetches it (40_datapath.md R101). -/
def Executes (s : State) (w : Word) : Prop := s.Running ∧ s.fetch = .ok w

/-- The next cycle commits a store to this cell (20_memory.md R47). -/
def StoresTo (s : State) (addr : Nat) : Prop :=
  ∃ w rs rt imm, Executes s w ∧ decode w = .sw rs rt imm ∧ addr = (s.address rs imm).toNat ∧ addr < s.params.dmemWords

end Sys2Proof.Machine
end

