-- ==== Sys2Proof/Certificates/Slice0/Obligations.lean ====
section
/-! DEFINITION. The statements for the provers. Each docstring names the rule of spec/ it formalises; where a clause rests
on a decision the spec marks as its own (92_eei_decisions.md), the docstring says so. -/

open Sys2Proof Sys2Proof.Machine

/-! ### Encoding -/

/-- Words written out bit by bit from the table of R64 and the vectors of 95_test_vectors.md 2.1, 2.8 and 2.11. -/
def Obligations.WrittenOutWordsDecode : Prop :=
  decode 0x00221820 = .add 1 2 3 0 ∧ decode 0x00221FE0 = .add 1 2 3 31 ∧
  decode 0x00222824 = .and 1 2 5 0 ∧ decode 0x012A4FEA = .slt 9 10 9 31 ∧
  decode 0x10200003 = .beq 1 0 3 ∧ decode 0x2021FFFF = .addi 1 1 0xFFFF ∧
  decode 0x34488000 = .ori 2 8 0x8000 ∧ decode 0x3C218000 = .lui 1 1 0x8000 ∧
  decode 0x8C47FFFD = .lw 2 7 0xFFFD ∧ decode 0xAC61FFFC = .sw 3 1 0xFFFC ∧
  decode 0x00000000 = .unsupported 0x00000000 ∧ decode 0x00221822 = .unsupported 0x00221822 ∧
  decode 0x14200003 = .unsupported 0x14200003 ∧ decode 0xFFFFFFFF = .unsupported 0xFFFFFFFF

/-- Decoding an encoded well-formed instruction gives it back, every operand at every value (30_encoding.md sections 1
to 4). -/
def Obligations.DecodeOfEncodeIsTheInstruction : Prop :=
  ∀ i : Instr, i.wf = true → decode (encode i) = i

/-- Every word decodes to a well-formed instruction whose encoding is that word: the decoder is total and drops no bit
(30_encoding.md section 4). -/
def Obligations.EncodeOfDecodeIsTheWord : Prop :=
  ∀ w : Word, (decode w).wf = true ∧ encode (decode w) = w

/-- R61: the seven fields in shift-and-mask form, and the overlap of `imm`. -/
def Obligations.FieldsAreShiftAndMask : Prop :=
  ∀ w : Word,
    (fields w).opcode.toNat = w.toNat >>> 26 ∧
    (fields w).rs.toNat = (w.toNat >>> 21) &&& 0x1F ∧
    (fields w).rt.toNat = (w.toNat >>> 16) &&& 0x1F ∧
    (fields w).rd.toNat = (w.toNat >>> 11) &&& 0x1F ∧
    (fields w).shamt.toNat = (w.toNat >>> 6) &&& 0x1F ∧
    (fields w).funct.toNat = w.toNat &&& 0x3F ∧
    (fields w).imm.toNat = w.toNat &&& 0xFFFF ∧
    (fields w).imm = (fields w).rd ++ (fields w).shamt ++ (fields w).funct

/-- The nine selections are pairwise disjoint, so the order of the rows cannot change the outcome (30_encoding.md
section 3, an inference the spec marks as derived from its table). -/
def Obligations.TableOrderIsIrrelevant : Prop :=
  (∀ w : Word, ∀ r ∈ opcodeTable, ∀ r' ∈ opcodeTable, r.holds w = true → r'.holds w = true → r = r') ∧
  (∀ table : List TableRow, table.Perm opcodeTable → ∀ w : Word, selectIn table w = select w)

/-- R67 and R160: which words are unmatched, how many there are, and that each gets the disabled control word and does
nothing but advance the pc. -/
def Obligations.UnmatchedClass : Prop :=
  (∀ w : Word, unmatched w = true ↔ UnmatchedByFields w) ∧
  (∀ w : Word, UnmatchedByFields w →
    controlOf w = disabledWord ∧ ∀ s : State, exec (decode w) s = .next { s with pc := s.pc + 1#32 }) ∧
  (Finset.univ.filter fun n : Fin 64 => BitVec.ofFin n ∉ ([0x20#6, 0x24#6, 0x2A#6] : List Code)).card = 61 ∧
  (Finset.univ.filter fun n : Fin 64 =>
    BitVec.ofFin n ∉ ([0x00#6, 0x04#6, 0x08#6, 0x0D#6, 0x0F#6, 0x23#6, 0x2B#6] : List Code)).card = 57 ∧
  Nat.count (fun n => unmatched (BitVec.ofNat 32 n) = false) (2 ^ 32) = 405798912 ∧
  Nat.count (fun n => unmatched (BitVec.ofNat 32 n) = true) (2 ^ 32) = 3889168384

/-- Fields that take no part in selection are not checked (30_encoding.md section 3, an inference the spec marks as
derived): two words that differ only in `shamt` under opcode 0x00, or only in `rs` under opcode 0x0F, select the same row
and do the same in every state; under an immediate opcode the low 16 bits take no part in selection. -/
def Obligations.IgnoredFieldsChangeNothing : Prop :=
  (∀ w w' : Word, (fields w).opcode = 0x00#6 → w &&& 0xFFFFF83F#32 = w' &&& 0xFFFFF83F#32 →
    select w = select w' ∧ ∀ s : State, exec (decode w) s = exec (decode w') s) ∧
  (∀ w w' : Word, (fields w).opcode = 0x0F#6 → w &&& 0xFC1FFFFF#32 = w' &&& 0xFC1FFFFF#32 →
    select w = select w' ∧ ∀ s : State, exec (decode w) s = exec (decode w') s) ∧
  (∀ w w' : Word, (fields w).opcode ≠ 0x00#6 → w &&& 0xFFFF0000#32 = w' &&& 0xFFFF0000#32 → select w = select w')

/-! ### Control unit, ALU, operands, pc unit -/

/-- R83 and R84: the lookup table, row for row, and the default. -/
def Obligations.ControlTable : Prop :=
  controlUnit 0x00#6 0x20#6 = ⟨true, true, .register, .add, false, false, false⟩ ∧
  controlUnit 0x00#6 0x24#6 = ⟨true, true, .register, .and, false, false, false⟩ ∧
  controlUnit 0x00#6 0x2A#6 = ⟨true, true, .register, .setLessThan, false, false, false⟩ ∧
  (∀ funct : Code,
    controlUnit 0x08#6 funct = ⟨true, false, .signExtendedImm, .add, false, false, false⟩ ∧
    controlUnit 0x0D#6 funct = ⟨true, false, .zeroExtendedImm, .or, false, false, false⟩ ∧
    controlUnit 0x0F#6 funct = ⟨true, false, .zeroExtendedImm, .shiftLeft16, false, false, false⟩ ∧
    controlUnit 0x23#6 funct = ⟨true, false, .signExtendedImm, .add, true, false, false⟩ ∧
    controlUnit 0x2B#6 funct = ⟨false, false, .signExtendedImm, .add, false, true, false⟩ ∧
    controlUnit 0x04#6 funct = ⟨false, false, .register, .equal, false, false, true⟩) ∧
  (∀ w : Word, UnmatchedByFields w → controlOf w = ⟨false, false, .register, .add, false, false, false⟩)

/-- The facts about the table that other rules rely on, and that exactly ten control words occur (40_datapath.md section
3, an inference the spec marks as derived from its table). -/
def Obligations.ControlWordFacts : Prop :=
  (∀ opcode funct : Code,
    let cw := controlUnit opcode funct
    ¬(cw.memRead = true ∧ cw.memWrite = true) ∧
    (cw.branch = true → cw.aluOp = .equal ∧ opcode = 0x04#6) ∧
    (cw.aluOp = .equal → opcode = 0x04#6) ∧
    (cw.memRead = true → cw.regWrite = true) ∧
    (cw.memWrite = true → cw.regWrite = false) ∧
    (cw.destIsRd = true → opcode = 0x00#6) ∧
    (cw.aluOp = .or → cw.aluSrc = .zeroExtendedImm) ∧
    (cw.aluOp = .and ∨ cw.aluOp = .setLessThan → cw.aluSrc = .register)) ∧
  ∃ words : List ControlWord, words.length = 10 ∧ words.Nodup ∧
    ∀ cw : ControlWord, cw ∈ words ↔ ∃ opcode funct : Code, controlUnit opcode funct = cw

/-- R88 to R94: the six operations on the integers or bit by bit, and the flag. -/
def Obligations.AluOperations : Prop :=
  ∀ a b : Word,
    (alu .add a b).result.toNat = (a.toNat + b.toNat) % 2 ^ 32 ∧
    (∀ i, (alu .and a b).result.getLsbD i = (a.getLsbD i && b.getLsbD i)) ∧
    (∀ i, (alu .or a b).result.getLsbD i = (a.getLsbD i || b.getLsbD i)) ∧
    (alu .setLessThan a b).result.toNat = (if signed a < signed b then 1 else 0) ∧
    (alu .shiftLeft16 a b).result.toNat = b.toNat * 2 ^ 16 % 2 ^ 32 ∧
    (alu .shiftLeft16 a b).result = b.extractLsb' 0 16 ++ 0#16 ∧
    ((alu .equal a b).equal = true ↔ ∀ i < 32, a.getLsbD i = b.getLsbD i) ∧
    ((alu .equal a b).equal = true ↔ a - b = 0#32)

/-- R13: the two extensions as R13 writes them, and the numbers they stand for. -/
def Obligations.ImmediateExtensions : Prop :=
  ∀ v : Imm,
    (sext32 v).toNat = (if v.getLsbD 15 = true then 0xFFFF0000 ||| v.toNat else v.toNat) ∧
    (zext32 v).toNat = v.toNat ∧
    signed (sext32 v) = v.toInt ∧ -32768 ≤ v.toInt ∧ v.toInt ≤ 32767

/-- R99: the next pc, relative to the address after the branch, in words, modulo 2^32. Displacement -1 taken returns to
the branch itself; displacement 0 makes taken and not taken the same. The pc unit's value is the pc a cycle commits, and
the very next cycle executes the word there: no delay slot. (The wrap at the top is decision D2.) -/
def Obligations.NextPcIsSequentialOrTarget : Prop :=
  (∀ (pc : Word) (imm : Imm) (branch equal : Bool),
    (nextPc pc imm branch equal).toNat =
      (if branch = true ∧ equal = true then sumMod pc (1 + imm.toInt) else (pc.toNat + 1) % 2 ^ 32) ∧
    nextPc pc 0xFFFF#16 true true = pc ∧
    nextPc pc 0x0000#16 true true = nextPc pc 0x0000#16 true false) ∧
  ∀ (s t : State) (w : Word), Executes s w → step s = .next t → t.Running →
    t.pc = nextPc s.pc (fields w).imm (controlOf w).branch (s.aluOf w).equal ∧
    ∀ w' : Word, s.fetchAt t.pc = .ok w' → step t = exec (decode w') t

/-- R42: the data address of a `lw` or `sw` is the whole ALU result, the 32-bit sum read as an unsigned word index; nothing
is masked before the bound check. -/
def Obligations.DataAddressIsTheWholeSum : Prop :=
  ∀ (s : State) (rs : RegIdx) (imm : Imm),
    (s.address rs imm).toNat = sumMod (s.readReg rs) imm.toInt ∧
    (s.inRange (s.address rs imm) = true ↔ sumMod (s.readReg rs) imm.toInt < s.params.dmemWords) ∧
    ∀ (w : Word) (rt : RegIdx), IsAccess (decode w) rs rt imm → (s.aluOf w).result = s.address rs imm

/-! ### Instructions: encoding, control word, result, frame -/

/-- R120. -/
def Obligations.AddEffect : Prop :=
  RowMeans 0xFC00003F#32 0x00000020#32 (fun f => .add f.rs f.rt f.rd f.shamt)
    ⟨true, true, .register, .add, false, false, false⟩ ∧
  ∀ (rs rt rd shamt : RegIdx) (s : State), ∃ t, exec (.add rs rt rd shamt) s = .next t ∧
    (t.readReg rd).toNat =
      (if rd = 0#5 then 0 else ((s.readReg rs).toNat + (s.readReg rt).toNat) % 2 ^ 32) ∧
    t.pc = s.pc + 1#32 ∧ RegsKeptBut rd s t ∧ MemKept s t ∧ MarkAndParamsKept s t

/-- R121. -/
def Obligations.AndEffect : Prop :=
  RowMeans 0xFC00003F#32 0x00000024#32 (fun f => .and f.rs f.rt f.rd f.shamt)
    ⟨true, true, .register, .and, false, false, false⟩ ∧
  ∀ (rs rt rd shamt : RegIdx) (s : State), ∃ t, exec (.and rs rt rd shamt) s = .next t ∧
    (∀ k, (t.readReg rd).getLsbD k =
      (if rd = 0#5 then false else ((s.readReg rs).getLsbD k && (s.readReg rt).getLsbD k))) ∧
    t.pc = s.pc + 1#32 ∧ RegsKeptBut rd s t ∧ MemKept s t ∧ MarkAndParamsKept s t

/-- R122. -/
def Obligations.SltEffect : Prop :=
  RowMeans 0xFC00003F#32 0x0000002A#32 (fun f => .slt f.rs f.rt f.rd f.shamt)
    ⟨true, true, .register, .setLessThan, false, false, false⟩ ∧
  ∀ (rs rt rd shamt : RegIdx) (s : State), ∃ t, exec (.slt rs rt rd shamt) s = .next t ∧
    (t.readReg rd).toNat =
      (if rd ≠ 0#5 ∧ signed (s.readReg rs) < signed (s.readReg rt) then 1 else 0) ∧
    t.pc = s.pc + 1#32 ∧ RegsKeptBut rd s t ∧ MemKept s t ∧ MarkAndParamsKept s t

/-- R130. -/
def Obligations.AddiEffect : Prop :=
  RowMeans 0xFC000000#32 0x20000000#32 (fun f => .addi f.rs f.rt f.imm)
    ⟨true, false, .signExtendedImm, .add, false, false, false⟩ ∧
  ∀ (rs rt : RegIdx) (imm : Imm) (s : State), ∃ t, exec (.addi rs rt imm) s = .next t ∧
    (t.readReg rt).toNat = (if rt = 0#5 then 0 else sumMod (s.readReg rs) imm.toInt) ∧
    t.pc = s.pc + 1#32 ∧ RegsKeptBut rt s t ∧ MemKept s t ∧ MarkAndParamsKept s t

/-- R131: bits 31 to 16 pass through, bits 15 to 0 are joined with the immediate. -/
def Obligations.OriEffect : Prop :=
  RowMeans 0xFC000000#32 0x34000000#32 (fun f => .ori f.rs f.rt f.imm)
    ⟨true, false, .zeroExtendedImm, .or, false, false, false⟩ ∧
  (∀ (rs rt : RegIdx) (imm : Imm) (s : State), ∃ t, exec (.ori rs rt imm) s = .next t ∧
    (∀ k, (t.readReg rt).getLsbD k =
      (if rt = 0#5 then false
       else if k < 16 then ((s.readReg rs).getLsbD k || imm.getLsbD k) else (s.readReg rs).getLsbD k)) ∧
    t.pc = s.pc + 1#32 ∧ RegsKeptBut rt s t ∧ MemKept s t ∧ MarkAndParamsKept s t) ∧
  (∀ (rs rt : RegIdx) (hi lo : Imm) (s t u : State), rt ≠ 0#5 →
    exec (.lui rs rt hi) s = .next t → exec (.ori rt rt lo) t = .next u → u.readReg rt = hi ++ lo)

/-- R132. -/
def Obligations.LuiEffect : Prop :=
  RowMeans 0xFC000000#32 0x3C000000#32 (fun f => .lui f.rs f.rt f.imm)
    ⟨true, false, .zeroExtendedImm, .shiftLeft16, false, false, false⟩ ∧
  ∀ (rs rt : RegIdx) (imm : Imm) (s : State), ∃ t, exec (.lui rs rt imm) s = .next t ∧
    t.readReg rt = (if rt = 0#5 then 0#32 else imm ++ 0#16) ∧
    t.pc = s.pc + 1#32 ∧ RegsKeptBut rt s t ∧ MemKept s t ∧ MarkAndParamsKept s t

/-- R140. Below the bound the whole cell is loaded; at or beyond it nothing is written, the pc stays and the machine
halts (that nothing commits is decision D5), for register 0 as destination too. -/
def Obligations.LwEffect : Prop :=
  RowMeans 0xFC000000#32 0x8C000000#32 (fun f => .lw f.rs f.rt f.imm)
    ⟨true, false, .signExtendedImm, .add, true, false, false⟩ ∧
  ∀ (rs rt : RegIdx) (imm : Imm) (s : State),
    (s.address rs imm).toNat = sumMod (s.readReg rs) imm.toInt ∧
    ((s.address rs imm).toNat < s.params.dmemWords →
      ∃ t, exec (.lw rs rt imm) s = .next t ∧
        t.readReg rt = (if rt = 0#5 then 0#32 else s.dmem.read (s.address rs imm).toNat) ∧
        t.pc = s.pc + 1#32 ∧ RegsKeptBut rt s t ∧ MemKept s t ∧ MarkAndParamsKept s t) ∧
    (s.params.dmemWords ≤ (s.address rs imm).toNat →
      exec (.lw rs rt imm) s = .next { s with halted := some (.addressOutOfRange (s.address rs imm)) })

/-- The store of 43_load_store.md, that the stored value is `x[rt]` being decision D8 (assumption 8) and
that a fatal cycle commits nothing decision D5 (assumption 9). -/
def Obligations.SwEffect : Prop :=
  RowMeans 0xFC000000#32 0xAC000000#32 (fun f => .sw f.rs f.rt f.imm)
    ⟨false, false, .signExtendedImm, .add, false, true, false⟩ ∧
  ∀ (rs rt : RegIdx) (imm : Imm) (s : State),
    (s.address rs imm).toNat = sumMod (s.readReg rs) imm.toInt ∧
    ((s.address rs imm).toNat < s.params.dmemWords →
      ∃ t, exec (.sw rs rt imm) s = .next t ∧
        t.dmem.read (s.address rs imm).toNat = s.readReg rt ∧
        t.pc = s.pc + 1#32 ∧ RegsKept s t ∧ MemKeptBut (s.address rs imm).toNat s t ∧ MarkAndParamsKept s t) ∧
    (s.params.dmemWords ≤ (s.address rs imm).toNat →
      exec (.sw rs rt imm) s = .next { s with halted := some (.addressOutOfRange (s.address rs imm)) })

/-- R150. -/
def Obligations.BeqEffect : Prop :=
  RowMeans 0xFC000000#32 0x10000000#32 (fun f => .beq f.rs f.rt f.imm)
    ⟨false, false, .register, .equal, false, false, true⟩ ∧
  ∀ (rs rt : RegIdx) (imm : Imm) (s : State), ∃ t, exec (.beq rs rt imm) s = .next t ∧
    t.pc.toNat =
      (if s.readReg rs = s.readReg rt then sumMod s.pc (1 + imm.toInt) else (s.pc.toNat + 1) % 2 ^ 32) ∧
    RegsKept s t ∧ MemKept s t ∧ MarkAndParamsKept s t

/-- R84 and R173: an unmatched word is not an error and leaves everything but the pc as it was; the ALU's idle sum reaches
nothing. -/
def Obligations.UnsupportedEffect : Prop :=
  (∀ w : Word, UnmatchedByFields w →
    decode w = .unsupported w ∧ controlOf w = ⟨false, false, .register, .add, false, false, false⟩ ∧
    ∀ s : State, (s.aluOf w).result = s.readReg (fields w).rs + s.readReg (fields w).rt) ∧
  (∀ (w : Word) (s : State), ∃ t, exec (.unsupported w) s = .next t ∧
    t.pc = s.pc + 1#32 ∧ RegsKept s t ∧ MemKept s t ∧ MarkAndParamsKept s t) ∧
  (∀ (w : Word) (s : State), Executes s w → UnmatchedByFields w → step s = .next { s with pc := s.pc + 1#32 })

/-- R123: the three register-register instructions, whichever of the three a word selects and whatever its `shamt`: one
control word up to the ALU operation, sources read before the destination is written, nothing else touched. -/
def Obligations.RegisterRegisterFamily : Prop :=
  ∀ w : Word, (fields w).opcode = 0x00#6 → (fields w).funct ∈ ([0x20#6, 0x24#6, 0x2A#6] : List Code) →
    controlOf w = ⟨true, true, .register, (controlOf w).aluOp, false, false, false⟩ ∧
    ∀ s : State, ∃ t, exec (decode w) s = .next t ∧
      t.readReg (fields w).rd =
        (if (fields w).rd = 0#5 then 0#32
         else (alu (controlOf w).aluOp (s.readReg (fields w).rs) (s.readReg (fields w).rt)).result) ∧
      t.pc = s.pc + 1#32 ∧ RegsKeptBut (fields w).rd s t ∧ MemKept s t ∧ MarkAndParamsKept s t

/-- R133: the three register-immediate instructions write `x[rt]`, whose new value depends on no register but `x[rs]`. -/
def Obligations.RegisterImmediateFamily : Prop :=
  ∀ w : Word, (fields w).opcode ∈ ([0x08#6, 0x0D#6, 0x0F#6] : List Code) →
    ∀ s : State, ∃ t, exec (decode w) s = .next t ∧
      (∀ b : Word, t.readReg (fields w).rt =
        (if (fields w).rt = 0#5 then 0#32
         else (alu (controlOf w).aluOp (s.readReg (fields w).rs)
           (operandB (controlOf w).aluSrc b (fields w).imm)).result)) ∧
      t.pc = s.pc + 1#32 ∧ RegsKeptBut (fields w).rt s t ∧ MemKept s t ∧ MarkAndParamsKept s t

/-- R23: register 0 reads as zero in every state, and every instruction that names it as its destination completes and
changes nothing but the pc. -/
def Obligations.RegisterZeroIsHardwired : Prop :=
  ∀ s : State,
    s.readReg 0#5 = 0#32 ∧ (∀ v, s.writeReg 0#5 v = s) ∧
    (∀ rs rt shamt, exec (.add rs rt 0#5 shamt) s = .next { s with pc := s.pc + 1#32 } ∧
      exec (.and rs rt 0#5 shamt) s = .next { s with pc := s.pc + 1#32 } ∧
      exec (.slt rs rt 0#5 shamt) s = .next { s with pc := s.pc + 1#32 }) ∧
    (∀ rs imm, exec (.addi rs 0#5 imm) s = .next { s with pc := s.pc + 1#32 } ∧
      exec (.ori rs 0#5 imm) s = .next { s with pc := s.pc + 1#32 } ∧
      exec (.lui rs 0#5 imm) s = .next { s with pc := s.pc + 1#32 } ∧
      ((s.address rs imm).toNat < s.params.dmemWords →
        exec (.lw rs 0#5 imm) s = .next { s with pc := s.pc + 1#32 })) ∧
    (∀ n t, core.run n s = .next t → State.readReg t 0#5 = 0#32)

/-! ### The cycle -/

/-- R51: when the image holds a word at the pc, a running machine executes the instruction it decodes to, and `step` adds
nothing around `exec`. -/
def Obligations.StepRunsTheDecodedInstruction : Prop :=
  ∀ (s : State) (w : Word), s.Running → s.params.image[s.pc.toNat]? = some w →
    s.fetchAt s.pc = .ok w ∧ step s = exec (decode w) s

/-- R101: `step` is the datapath's cycle, for every state. The ALU's two free values (assumption 6) stand in the cycle and
not in `step`, so no state depends on them. R101 sums up the spec's decisions D4 to D8 too. -/
def Obligations.StepIsTheDatapathCycle : Prop :=
  ∀ s : State, step s = .next s.cycle

/-- R108: a run of `N` cycles is the cycle applied `N` times. -/
def Obligations.RunIsTheIteratedCycle : Prop :=
  ∀ (n : Nat) (s : State), core.run n s = .next (State.cycle^[n] s)

/-- R102: the step is total and has one result. -/
def Obligations.StepIsTotalAndDeterministic : Prop :=
  ∀ s : State, ∃! t : State, step s = .next t

/-- The write port of 10_state.md section 2 and 40_datapath.md section 7: at most one register is written, the one the
control word names, with the write-back value (whose multiplexer is decision D7); the writing instructions are the seven
listed. -/
def Obligations.RegisterWritePort : Prop :=
  (∀ (s t : State) (w : Word), Executes s w → step s = .next t → t.Running →
    ∀ i, t.readReg i =
      if (controlOf w).regWrite = true ∧ i = destReg (controlOf w) (fields w) ∧ i ≠ 0#5 then s.wdataOf w
      else s.readReg i) ∧
  (∀ w : Word, (controlOf w).regWrite = true ↔
    select w ∈ ([some .add, some .and, some .slt, some .addi, some .ori, some .lui, some .lw] :
      List (Option Selection))) ∧
  (∀ w : Word, (controlOf w).regWrite = true →
    destReg (controlOf w) (fields w) =
      if select w ∈ ([some .add, some .and, some .slt] : List (Option Selection)) then (fields w).rd
      else (fields w).rt)

/-- R33: a data cell changes only by the committed write of a `sw`, and only the cell it addresses; no cell beyond
`DMEM_WORDS` ever comes to be listed. -/
def Obligations.DataMemoryChangesOnlyBySw : Prop :=
  (∀ (s t : State) (a : Nat), step s = .next t → t.dmem.read a ≠ s.dmem.read a →
    StoresTo s a ∧ ∀ b, b ≠ a → t.dmem.read b = s.dmem.read b) ∧
  (∀ s t : State, s.dmem.below s.params.dmemWords = true → step s = .next t →
    t.dmem.below t.params.dmemWords = true)

/-- R28 and R151: a committed cycle moves the pc to the taken branch's target or to `pc + 1`, and only a `beq` can do the
first; what an instruction does to registers, memory and the mark does not depend on the pc. -/
def Obligations.PcMovesByOneOrByBranch : Prop :=
  (∀ (s t : State) (w : Word), Executes s w → step s = .next t → t.Running →
    (∀ imm, IsTaken (decode w) s imm → t.pc = s.pc + 1#32 + sext32 imm) ∧
    ((∀ imm, ¬IsTaken (decode w) s imm) → t.pc = s.pc + 1#32)) ∧
  (∀ (i : Instr) (s t : State) (p : Word), exec i s = .next t →
    ∃ u, exec i { s with pc := p } = .next u ∧ RegsKept t u ∧ MemKept t u ∧ MarkAndParamsKept t u)

/-- R142: only `lw` and `sw` reach data memory or can halt on an address; every other instruction completes, leaves
memory as it is, and does the same whatever memory holds. Both form the address as `addi` forms its sum, and read or write
the one cell it names. -/
def Obligations.OnlyLoadStoreReachDataMemory : Prop :=
  (∀ (i : Instr) (s : State) (m : Memory), (∀ rs rt imm, ¬IsAccess i rs rt imm) →
    ∃ t, exec i s = .next t ∧ t.dmem = s.dmem ∧ t.halted = s.halted ∧
      exec i { s with dmem := m } = .next { t with dmem := m }) ∧
  (∀ (rs rt : RegIdx) (imm : Imm) (s t : State), rt ≠ 0#5 → exec (.addi rs rt imm) s = .next t →
    t.readReg rt = s.address rs imm) ∧
  (∀ (rs rt : RegIdx) (imm : Imm) (s t : State) (m : Memory),
    m.read (s.address rs imm).toNat = s.dmem.read (s.address rs imm).toNat →
    exec (.lw rs rt imm) s = .next t → exec (.lw rs rt imm) { s with dmem := m } = .next { t with dmem := m }) ∧
  (∀ (rs rt : RegIdx) (imm : Imm) (s t : State), exec (.sw rs rt imm) s = .next t →
    ∀ a, a ≠ (s.address rs imm).toNat → t.dmem.read a = s.dmem.read a)

/-- The round trip of 20_memory.md section 2: only `sw` has `memWrite`; what a `sw` stores, a later `lw` from the same
address loads, whatever runs between them, provided no other store to that address commits in between. That the stored
value is `x[rt]` is decision D8 (assumption 8). -/
def Obligations.StoreThenLoadRoundTrip : Prop :=
  (∀ w : Word, (controlOf w).memWrite = true ↔ select w = some .sw) ∧
  ∀ (s t u v : State) (n : Nat) (rs rt rs' rt' : RegIdx) (imm imm' : Imm),
    (s.address rs imm).toNat < s.params.dmemWords →
    exec (.sw rs rt imm) s = .next t →
    core.run n t = .next u →
    (∀ k < n, ∀ x : State, core.run k t = .next x → ¬StoresTo x (s.address rs imm).toNat) →
    State.address u rs' imm' = s.address rs imm → rt' ≠ 0#5 →
    exec (.lw rs' rt' imm') u = .next v → v.readReg rt' = s.readReg rt

/-- R34: no instruction can write instruction memory; it is constant for the whole run, and so is `DMEM_WORDS`. -/
def Obligations.InstructionMemoryIsConstant : Prop :=
  ∀ (n : Nat) (s t : State), core.run n s = .next t →
    State.params t = s.params ∧ ∀ a : Word, State.fetchAt t a = s.fetchAt a

/-- A taken branch is followed in the next cycle by the instruction at its target: there is no delay slot
(70_reset_and_hazards.md section 3, an inference the spec marks as derived). -/
def Obligations.TakenBranchHasNoDelaySlot : Prop :=
  ∀ (s : State) (w w' : Word) (imm : Imm), Executes s w → IsTaken (decode w) s imm →
    s.fetchAt (s.pc + 1#32 + sext32 imm) = .ok w' →
    ∃ t, step s = .next t ∧ t = { s with pc := s.pc + 1#32 + sext32 imm } ∧ step t = exec (decode w') t

/-- Within one instruction reads precede writes (70_reset_and_hazards.md section 3). A register that is both source and
destination is read with its old value, a load's address too, and a store of its own base register stores the base, the
stored value being `x[rt]` by decision D8 (assumption 8); no word both reads and writes memory. -/
def Obligations.ReadsPrecedeWrites : Prop :=
  (∀ w : Word, ¬((controlOf w).memRead = true ∧ (controlOf w).memWrite = true)) ∧
  ∀ (r shamt : RegIdx) (imm : Imm) (s t : State), r ≠ 0#5 →
    (exec (.add r r r shamt) s = .next t → (t.readReg r).toNat = 2 * (s.readReg r).toNat % 2 ^ 32) ∧
    (exec (.addi r r imm) s = .next t → (t.readReg r).toNat = sumMod (s.readReg r) imm.toInt) ∧
    (sumMod (s.readReg r) imm.toInt < s.params.dmemWords →
      (exec (.lw r r imm) s = .next t → t.readReg r = s.dmem.read (sumMod (s.readReg r) imm.toInt)) ∧
      (exec (.sw r r imm) s = .next t → t.dmem.read (sumMod (s.readReg r) imm.toInt) = s.readReg r))

/-- The instruction after a `lw` sees the loaded value in the register, the instruction after a `sw` the stored value in
memory (70_reset_and_hazards.md section 3). That the stored value is `x[rt]` is decision D8 (assumption 8). -/
def Obligations.NoLoadDelay : Prop :=
  ∀ (s : State) (w w' : Word) (rs rt : RegIdx) (imm : Imm), Executes s w → s.fetchAt (s.pc + 1#32) = .ok w' →
    (s.address rs imm).toNat < s.params.dmemWords →
    (decode w = .lw rs rt imm → rt ≠ 0#5 → ∃ t, step s = .next t ∧
      t.readReg rt = s.dmem.read (s.address rs imm).toNat ∧ step t = exec (decode w') t) ∧
    (decode w = .sw rs rt imm → ∃ t, step s = .next t ∧
      t.dmem.read (s.address rs imm).toNat = s.readReg rt ∧ step t = exec (decode w') t)

/-- The commit applies what a cycle staged, each part to its own element, and the order inside it is immaterial
(40_datapath.md section 9). -/
def Obligations.CommitIsOrderFree : Prop :=
  ∀ (s : State) (st : Staged),
    (s.applyReg st.reg).applyMem st.mem = (s.applyMem st.mem).applyReg st.reg ∧
    (∀ i, (s.commit st).readReg i =
      match st.reg with
      | some (d, v) => if i = d ∧ i ≠ 0#5 then v else s.readReg i
      | none => s.readReg i) ∧
    (∀ b, (s.commit st).dmem.read b =
      match st.mem with
      | some (a, v) => if b = a.toNat then v else s.dmem.read b
      | none => s.dmem.read b) ∧
    (s.commit st).pc = st.nextPc ∧ MarkAndParamsKept s (s.commit st)

/-! ### Fatal conditions -/

/-- R174: `AddressOutOfRange` is raised by a `lw` or `sw` whose address is not below `DMEM_WORDS`, and by nothing else;
with `DMEM_WORDS = 2^32` it never occurs. -/
def Obligations.AddressOutOfRangeExactly : Prop :=
  (∀ (s t : State) (a : Word), s.Running → step s = .next t →
    (t.halted = some (.addressOutOfRange a) ↔
      ∃ w rs rt imm, s.fetch = .ok w ∧ IsAccess (decode w) rs rt imm ∧ a = s.address rs imm ∧
        s.params.dmemWords ≤ sumMod (s.readReg rs) imm.toInt)) ∧
  (∀ (s t : State) (a : Word), s.Running → s.params.dmemWords = 2 ^ 32 → step s = .next t →
    t.halted ≠ some (.addressOutOfRange a))

/-- The spec's own condition `FetchOutOfImage` (decision D6, assumption 10): a cycle that starts outside the image commits
nothing and halts; inside the image the condition does not arise. -/
def Obligations.FetchOutsideTheImageHalts : Prop :=
  ∀ s : State, s.Running →
    (s.params.image.length ≤ s.pc.toNat → step s = .next { s with halted := some (.fetchOutOfImage s.pc) }) ∧
    (s.pc.toNat < s.params.image.length → ∀ t p, step s = .next t → t.halted ≠ some (.fetchOutOfImage p))

/-- A cycle that raises a condition changes the mark and nothing else (decision D5, assumption 9). -/
def Obligations.FatalCycleCommitsNothing : Prop :=
  ∀ s t : State, step s = .next t → t.halted ≠ s.halted →
    s.Running ∧ ∃ f, t = { s with halted := some f }

/-- A halted machine stays exactly as it is, for any number of cycles (decision D5, assumption 9). -/
def Obligations.HaltIsAbsorbing : Prop :=
  ∀ (n : Nat) (s : State), ¬s.Running → core.run n s = .next s

/-- Every step keeps the mark precise: the pc addresses the offending instruction and the recorded value is the one out of
range (decision D5, assumption 9). -/
def Obligations.HaltMarkStaysPrecise : Prop :=
  ∀ s t : State, s.HaltPrecise → step s = .next t → t.HaltPrecise

/-! ### Invariant, reset, boot -/

/-- Every step keeps the state invariant: the cell behind register 0, the canonical form and bound of data memory, legal
parameters. The canonical form is the model's (assumption 3). -/
def Obligations.EveryStepKeepsInv : Prop :=
  ∀ s t : State, s.Inv → step s = .next t → t.Inv

/-- The reset state meets both invariants. Its parameters are the model's choice (assumptions 2 and 4). -/
def Obligations.ResetMeetsInv : Prop :=
  State.reset.Inv ∧ State.reset.HaltPrecise

/-- Every legally loaded machine meets both invariants at cycle 0 (seeding is decision D12, assumption 7). -/
def Obligations.BootMeetsInv : Prop :=
  ∀ (p : Params) (sd : Seeds) (s : State), State.boot p sd = some s → s.Inv ∧ s.HaltPrecise

/-- R200: what reset leaves, in `State.reset` and, for every legal parameter value, in the unseeded machine. -/
def Obligations.ResetLeavesZero : Prop :=
  (∀ s : State, (s = State.reset ∨ ∃ p, State.boot p Seeds.none = some s) →
    s.pc = 0#32 ∧ (∀ i, s.readReg i = 0#32) ∧ (∀ a, s.dmem.read a = 0#32) ∧ s.Running) ∧
  (∀ p : Params, 1 ≤ p.dmemWords → p.dmemWords ≤ 2 ^ 32 → ∃ s, State.boot p Seeds.none = some s ∧ s.params = p)

/-- R201: the first cycle executes the image's word 0. -/
def Obligations.FirstCycleExecutesWordZero : Prop :=
  ∀ (p : Params) (sd : Seeds) (s : State) (w : Word), State.boot p sd = some s → p.image[0]? = some w →
    step s = exec (decode w) s

/-- External seeding (decision D12, assumption 7): registers 1 to 31 and data cells below the bound may be replaced, the
pc and register 0 may not, and a seed outside the bound is no legal configuration. -/
def Obligations.SeedsReplaceResetValues : Prop :=
  (∀ (p : Params) (sd : Seeds) (s : State), State.boot p sd = some s →
    s.pc = 0#32 ∧ s.readReg 0#5 = 0#32 ∧ (∀ i : RegIdx, i ≠ 0#5 → s.readReg i = sd.regs[i.toNat]'i.isLt) ∧
    (∀ a, s.dmem.read a = Memory.read sd.dmem a) ∧ s.Running ∧ s.params = p) ∧
  (∀ (p : Params) (sd : Seeds), (∃ e ∈ sd.dmem, p.dmemWords ≤ e.1) → State.boot p sd = none)

/-! ### Interfaces and runs -/

/-- The inspection interface (decision D20): defined on 0 to 31 and below `DMEM_WORDS`, and nowhere else. -/
def Obligations.InspectionReadsTheState : Prop :=
  ∀ s : State,
    (∀ i : RegIdx, s.readRegister i.toNat = some (s.readReg i)) ∧ s.readRegister 0 = some 0#32 ∧
    (∀ n, 31 < n → s.readRegister n = none) ∧
    (∀ a, a < s.params.dmemWords → s.readMemory a = some (s.dmem.read a)) ∧
    (∀ a, s.params.dmemWords ≤ a → s.readMemory a = none)

/-- The diagnostic output (decision D10): true exactly in a cycle that executes an unmatched word, which changes nothing
but the pc. -/
def Obligations.UnsupportedSignalMarksNoOps : Prop :=
  ∀ s : State,
    (s.unsupportedSignal = true ↔ ∃ w, Executes s w ∧ UnmatchedByFields w) ∧
    (s.unsupportedSignal = true → step s = .next { s with pc := s.pc + 1#32 })

/-- The fixed points of `step` are the halted states and the states on a taken branch to itself (70_reset_and_hazards.md
section 5, decision D13). -/
def Obligations.FixedPointsAreSelfBranchOrHalt : Prop :=
  ∀ s : State, step s = .next s ↔ (¬s.Running ∨ ∃ w, Executes s w ∧ IsTaken (decode w) s 0xFFFF#16)

/-- A stretch of the image with no branch, and no access that could be out of range, runs one word a cycle to the end of
the image without fetching there; the next cycle halts there (70_reset_and_hazards.md section 5, an inference the spec
marks as derived, from decision D6). -/
def Obligations.StraightLineRunsToTheEnd : Prop :=
  ∀ (s : State) (n : Nat), s.Running → s.pc.toNat + n = s.params.image.length → s.params.image.length < 2 ^ 32 →
    (∀ k w, s.pc.toNat ≤ k → s.params.image[k]? = some w →
      (∀ rs rt imm, decode w ≠ .beq rs rt imm) ∧
      (s.params.dmemWords = 2 ^ 32 ∨ ∀ rs rt imm, ¬IsAccess (decode w) rs rt imm)) →
    ∃ t : State, core.run n s = .next t ∧ t.Running ∧ t.pc.toNat = s.params.image.length ∧
      core.run (n + 1) s = .next { t with halted := some (.fetchOutOfImage t.pc) }
end

