-- ==== Sys2Proof/Laws/Decode.lean ====
section
/-! SUPPORT. Laws of the field decoder, the opcode map and the encoder: a row of the map is a condition on `opcode` and
`funct` alone, and the encoder puts every operand where the field decoder finds it. -/

namespace Sys2Proof

/-- A word is its opcode followed by its other bits. -/
theorem word_split_opcode (w : Word) : w.extractLsb' 26 6 ++ w.extractLsb' 0 26 = w := by
  ext i hi
  simp only [BitVec.getElem_append, BitVec.getElem_extractLsb']
  split
  · simp [BitVec.getLsbD_eq_getElem hi]
  · rw [show 26 + (i - 26) = i by omega, BitVec.getLsbD_eq_getElem hi]

/-- A word is its opcode, its middle and its function code. -/
theorem word_split_funct (w : Word) : w.extractLsb' 26 6 ++ w.extractLsb' 6 20 ++ w.extractLsb' 0 6 = w := by
  ext i hi
  simp only [BitVec.getElem_append, BitVec.getElem_extractLsb']
  split
  · simp [BitVec.getLsbD_eq_getElem hi]
  · split
    · rw [show 6 + (i - 6) = i by omega, BitVec.getLsbD_eq_getElem hi]
    · rw [show 26 + (i - 6 - 20) = i by omega, BitVec.getLsbD_eq_getElem hi]

/-- Joined bit patterns agree exactly when their parts do. -/
theorem append_eq_append_iff {m n : Nat} {a c : BitVec m} {b d : BitVec n} :
    a ++ b = c ++ d ↔ a = c ∧ b = d := by
  constructor
  · intro h
    constructor
    · have := congrArg (fun x => x.extractLsb' n m) h
      simpa [BitVec.extractLsb'_append_eq_left] using this
    · have := congrArg (fun x => x.extractLsb' 0 n) h
      simpa [BitVec.extractLsb'_append_eq_right] using this
  · rintro ⟨rfl, rfl⟩; rfl

theorem and_allOnes6 (c : Code) : c &&& 0x3F#6 = c := BitVec.and_allOnes (x := c)

/-- A row with an opcode alone is a condition on the opcode. -/
theorem mask_opcode_iff (w : Word) (c : Code) :
    w &&& 0xFC000000#32 = c ++ 0#26 ↔ (fields w).opcode = c := by
  conv => lhs; rw [← word_split_opcode w]
  rw [show 0xFC000000#32 = 0x3F#6 ++ 0#26 by decide, BitVec.and_append, append_eq_append_iff,
    and_allOnes6]
  simp [fields]

/-- A row with an opcode and a function code is a condition on those two fields. -/
theorem mask_funct_iff (w : Word) (c d : Code) :
    w &&& 0xFC00003F#32 = c ++ 0#20 ++ d ↔ (fields w).opcode = c ∧ (fields w).funct = d := by
  conv => lhs; rw [← word_split_funct w]
  rw [show 0xFC00003F#32 = 0x3F#6 ++ 0#20 ++ 0x3F#6 by decide, BitVec.and_append, BitVec.and_append,
    append_eq_append_iff, append_eq_append_iff, and_allOnes6, and_allOnes6]
  simp [fields]

/-- The selection as a function of `(opcode, funct)` (30_encoding.md R64). -/
def selectByFields (opcode funct : Code) : Option Selection :=
  if opcode = 0x00#6 then
    if funct = 0x20#6 then some .add else if funct = 0x24#6 then some .and else if funct = 0x2A#6 then some .slt else none
  else if opcode = 0x04#6 then some .beq
  else if opcode = 0x08#6 then some .addi
  else if opcode = 0x0D#6 then some .ori
  else if opcode = 0x0F#6 then some .lui
  else if opcode = 0x23#6 then some .lw
  else if opcode = 0x2B#6 then some .sw
  else none

/-- A row of the map with an opcode alone. -/
theorem holds_opcode_iff (sel : Selection) (w : Word) (c : Code) (p : Word) (hp : p = c ++ 0#26) :
    (TableRow.holds ⟨sel, 0xFC000000#32, p⟩ w) = decide ((fields w).opcode = c) := by
  rw [TableRow.holds, Bool.eq_iff_iff, beq_iff_eq, decide_eq_true_iff, hp]
  exact mask_opcode_iff w c

/-- A row of the map with opcode 0x00 and a function code. -/
theorem holds_funct_iff (sel : Selection) (w : Word) (c d : Code) (p : Word) (hp : p = c ++ 0#20 ++ d) :
    (TableRow.holds ⟨sel, 0xFC00003F#32, p⟩ w) = decide ((fields w).opcode = c ∧ (fields w).funct = d) := by
  rw [TableRow.holds, Bool.eq_iff_iff, beq_iff_eq, decide_eq_true_iff, hp]
  exact mask_funct_iff w c d

/-- The mask-and-match table selects by `(opcode, funct)` alone. -/
theorem select_eq_byFields (w : Word) : select w = selectByFields (fields w).opcode (fields w).funct := by
  unfold select selectIn opcodeTable selectByFields
  simp only [List.find?_cons, List.find?_nil, holds_funct_iff .add w 0x00#6 0x20#6 0x20#32 (by decide),
    holds_funct_iff .and w 0x00#6 0x24#6 0x24#32 (by decide), holds_funct_iff .slt w 0x00#6 0x2A#6 0x2A#32 (by decide),
    holds_opcode_iff .beq w 0x04#6 0x10000000#32 (by decide), holds_opcode_iff .addi w 0x08#6 0x20000000#32 (by decide),
    holds_opcode_iff .ori w 0x0D#6 0x34000000#32 (by decide), holds_opcode_iff .lui w 0x0F#6 0x3C000000#32 (by decide),
    holds_opcode_iff .lw w 0x23#6 0x8C000000#32 (by decide), holds_opcode_iff .sw w 0x2B#6 0xAC000000#32 (by decide)]
  generalize (fields w).opcode = op
  generalize (fields w).funct = fn
  by_cases h0 : op = 0x00#6
  · subst h0
    by_cases h1 : fn = 0x20#6
    · simp [h1]
    by_cases h2 : fn = 0x24#6
    · simp [h2]
    by_cases h3 : fn = 0x2A#6
    · simp [h3]
    simp [h1, h2, h3]
  · simp only [h0, false_and, decide_false]
    by_cases h1 : op = 0x04#6
    · simp [h1]
    by_cases h2 : op = 0x08#6
    · simp [h2]
    by_cases h3 : op = 0x0D#6
    · simp [h3]
    by_cases h4 : op = 0x0F#6
    · simp [h4]
    by_cases h5 : op = 0x23#6
    · simp [h5]
    by_cases h6 : op = 0x2B#6
    · simp [h6]
    simp [h1, h2, h3, h4, h5, h6]

/-! ### The encoder and the field decoder -/

/-- A slice inside the low part of two joined patterns. -/
theorem extract_append_low {m n k len : Nat} (a : BitVec m) (b : BitVec n) (h : k + len ≤ n) :
    (a ++ b).extractLsb' k len = b.extractLsb' k len := by
  ext i hi
  simp only [BitVec.getElem_extractLsb', BitVec.getLsbD_append]
  rw [if_pos (by omega)]

/-- A slice inside the high part of two joined patterns. -/
theorem extract_append_high {m n k len : Nat} (a : BitVec m) (b : BitVec n) (h : n ≤ k) :
    (a ++ b).extractLsb' k len = a.extractLsb' (k - n) len := by
  ext i hi
  simp only [BitVec.getElem_extractLsb', BitVec.getLsbD_append]
  rw [if_neg (by omega), show k + i - n = k - n + i by omega]

theorem extract_all {n : Nat} (a : BitVec n) : a.extractLsb' 0 n = a := BitVec.extractLsb'_eq_self

/-- The field decoder on a word of the register view. -/
@[simp] theorem fields_encodeR (rs rt rd shamt : RegIdx) (fn : Code) :
    fields (encodeR rs rt rd shamt fn) = ⟨0x00#6, rs, rt, rd, shamt, fn, rd ++ shamt ++ fn⟩ := by
  simp only [fields, encodeR, Fields.mk.injEq]
  refine ⟨?_, ?_, ?_, ?_, ?_, ?_, ?_⟩
  case refine_7 =>
    refine BitVec.eq_of_getLsbD_eq fun i hi => ?_
    change _ = BitVec.getLsbD (w := 5 + 5 + 6) (rd ++ shamt ++ fn) i
    simp only [BitVec.getLsbD_extractLsb', BitVec.getLsbD_append, Nat.zero_add, hi, decide_true, Bool.true_and]
    split
    · rfl
    · split
      · rfl
      · rw [if_pos (by omega)]
  all_goals
    repeat rw [extract_append_high _ _ (by decide)]
    try rw [extract_append_low _ _ (by decide)]
    first | rfl | exact extract_all _

/-- The field decoder on a word of the immediate view. -/
@[simp] theorem fields_encodeI (op : Code) (rs rt : RegIdx) (imm : Imm) :
    fields (encodeI op rs rt imm) =
      ⟨op, rs, rt, imm.extractLsb' 11 5, imm.extractLsb' 6 5, imm.extractLsb' 0 6, imm⟩ := by
  simp only [fields, encodeI, Fields.mk.injEq]
  refine ⟨?_, ?_, ?_, ?_, ?_, ?_, ?_⟩ <;>
    simp (disch := decide) only [extract_append_high, extract_append_low] <;>
    first | rfl | exact extract_all _

/-! ### The decoder by fields -/

/-- The unmatched words, by fields (30_encoding.md R67). -/
theorem unmatched_eq_byFields (w : Word) :
    unmatched w = (selectByFields (fields w).opcode (fields w).funct).isNone := by
  rw [unmatched, select_eq_byFields]

theorem decode_of_select_add {w : Word} (h : select w = some .add) :
    decode w = .add (fields w).rs (fields w).rt (fields w).rd (fields w).shamt := by
  unfold decode; rw [h]

theorem decode_of_select_and {w : Word} (h : select w = some .and) :
    decode w = .and (fields w).rs (fields w).rt (fields w).rd (fields w).shamt := by
  unfold decode; rw [h]

theorem decode_of_select_slt {w : Word} (h : select w = some .slt) :
    decode w = .slt (fields w).rs (fields w).rt (fields w).rd (fields w).shamt := by
  unfold decode; rw [h]

theorem decode_of_select_beq {w : Word} (h : select w = some .beq) :
    decode w = .beq (fields w).rs (fields w).rt (fields w).imm := by
  unfold decode; rw [h]

theorem decode_of_select_addi {w : Word} (h : select w = some .addi) :
    decode w = .addi (fields w).rs (fields w).rt (fields w).imm := by
  unfold decode; rw [h]

theorem decode_of_select_ori {w : Word} (h : select w = some .ori) :
    decode w = .ori (fields w).rs (fields w).rt (fields w).imm := by
  unfold decode; rw [h]

theorem decode_of_select_lui {w : Word} (h : select w = some .lui) :
    decode w = .lui (fields w).rs (fields w).rt (fields w).imm := by
  unfold decode; rw [h]

theorem decode_of_select_lw {w : Word} (h : select w = some .lw) :
    decode w = .lw (fields w).rs (fields w).rt (fields w).imm := by
  unfold decode; rw [h]

theorem decode_of_select_sw {w : Word} (h : select w = some .sw) :
    decode w = .sw (fields w).rs (fields w).rt (fields w).imm := by
  unfold decode; rw [h]

/-- The decoder's answer is well-formed: an unmatched word is what `unsupported` holds. -/
theorem decode_unmatched {w : Word} (h : unmatched w = true) : decode w = .unsupported w := by
  unfold decode
  rw [Option.isNone_iff_eq_none.mp h]

end Sys2Proof
end

