-- ==== Sys2Proof/Laws/Memory.lean ====
section
/-! SUPPORT. Laws of data memory: a cell reads as last written, writes leave other cells alone, and every operation keeps
the canonical form. The reading laws hold for every list, canonical or not. -/

namespace Sys2Proof.Machine

@[simp] theorem Memory.read_nil (a : Nat) : Memory.read [] a = 0#32 := rfl

theorem Memory.read_cons (b : Nat) (v : Word) (m : Memory) (a : Nat) :
    Memory.read ((b, v) :: m) a = if a = b then v else Memory.read m a := rfl

theorem Memory.read_insert (m : Memory) (a : Nat) (v : Word) (b : Nat) :
    Memory.read (Memory.insert m a v) b = if b = a then v else Memory.read m b := by
  induction m with
  | nil => simp [Memory.insert, Memory.read_cons]
  | cons e r ih =>
    obtain ⟨c, u⟩ := e
    simp only [Memory.insert]
    split
    · rw [Memory.read_cons]
    · split
      · subst a
        simp only [Memory.read_cons]
        split <;> rfl
      · simp only [Memory.read_cons, ih]
        split <;> split <;> first | rfl | omega

theorem Memory.read_erase (m : Memory) (a b : Nat) :
    Memory.read (m.filter (fun e => e.1 != a)) b = if b = a then 0#32 else Memory.read m b := by
  induction m with
  | nil => simp
  | cons e r ih =>
    obtain ⟨c, u⟩ := e
    by_cases h : c = a
    · subst c
      simp only [List.filter_cons, bne_self_eq_false, Bool.false_eq_true, if_false, ih, Memory.read_cons]
      split <;> rfl
    · simp only [List.filter_cons, bne_iff_ne, ne_eq, h, not_false_eq_true, if_true, Memory.read_cons, ih]
      split <;> split <;> first | rfl | omega

/-- All that a write can do to a read. -/
theorem Memory.read_write (m : Memory) (a : Nat) (v : Word) (b : Nat) :
    (m.write a v).read b = if b = a then v else m.read b := by
  unfold Memory.write
  split
  · next h => rw [Memory.read_erase, h]; rfl
  · exact Memory.read_insert m a v b

@[simp] theorem Memory.read_write_same (m : Memory) (a : Nat) (v : Word) : (m.write a v).read a = v := by
  simp [Memory.read_write]

theorem Memory.read_write_other (m : Memory) {a b : Nat} (v : Word) (h : b ≠ a) :
    (m.write a v).read b = m.read b := by
  simp [Memory.read_write, h]

theorem Memory.below_cons (e : Nat × Word) (m : Memory) (n : Nat) :
    Memory.below (e :: m) n = true ↔ e.1 < n ∧ Memory.below m n = true := by
  simp [Memory.below]

theorem Memory.wf_cons (a : Nat) (v : Word) (m : Memory) :
    Memory.wf ((a, v) :: m) = true ↔ v ≠ unlistedCell ∧ (∀ e ∈ m, a < e.1) ∧ Memory.wf m = true := by
  simp [Memory.wf, and_assoc]

theorem Memory.mem_insert {m : Memory} {a : Nat} {v : Word} {e : Nat × Word} (h : e ∈ Memory.insert m a v) :
    e = (a, v) ∨ e ∈ m := by
  induction m with
  | nil => simpa [Memory.insert] using h
  | cons c r ih =>
    obtain ⟨c, u⟩ := c
    simp only [Memory.insert] at h
    split at h
    · simpa using h
    · split at h
      · rcases List.mem_cons.mp h with h | h
        · exact .inl h
        · exact .inr (List.mem_cons_of_mem _ h)
      · rcases List.mem_cons.mp h with h | h
        · exact .inr (h ▸ List.mem_cons_self)
        · exact (ih h).imp_right (List.mem_cons_of_mem _)

theorem Memory.insert_wf {m : Memory} {a : Nat} {v : Word} (hv : v ≠ unlistedCell) (h : m.wf = true) :
    (Memory.insert m a v).wf = true := by
  induction m with
  | nil => simp [Memory.insert, hv, Memory.wf]
  | cons c r ih =>
    obtain ⟨c, u⟩ := c
    obtain ⟨hu, hr, hw⟩ := (Memory.wf_cons c u r).mp h
    simp only [Memory.insert]
    split
    · next hac =>
      refine (Memory.wf_cons _ _ _).mpr ⟨hv, fun e he => ?_, h⟩
      rcases List.mem_cons.mp he with rfl | he
      · exact hac
      · exact hac.trans (hr e he)
    · split
      · next hac =>
        subst hac
        exact (Memory.wf_cons _ _ _).mpr ⟨hv, hr, hw⟩
      · refine (Memory.wf_cons _ _ _).mpr ⟨hu, fun e he => ?_, ih hw⟩
        rcases Memory.mem_insert he with rfl | he
        · show c < a
          omega
        · exact hr e he

theorem Memory.filter_wf {m : Memory} (p : Nat × Word → Bool) (h : m.wf = true) : Memory.wf (m.filter p) = true := by
  induction m with
  | nil => rfl
  | cons c r ih =>
    obtain ⟨c, u⟩ := c
    obtain ⟨hu, hr, hw⟩ := (Memory.wf_cons c u r).mp h
    rw [List.filter_cons]
    split
    · exact (Memory.wf_cons _ _ _).mpr ⟨hu, fun e he => hr e (List.mem_filter.mp he).1, ih hw⟩
    · exact ih hw

/-- Every memory operation keeps the canonical form. -/
theorem Memory.write_wf {m : Memory} {a : Nat} {v : Word} (h : m.wf = true) : (m.write a v).wf = true := by
  unfold Memory.write
  split
  · exact Memory.filter_wf _ h
  · next hv => exact Memory.insert_wf hv h

/-- A write below the bound keeps every listed cell below it. -/
theorem Memory.write_below {m : Memory} {a n : Nat} {v : Word} (ha : a < n) (h : m.below n = true) :
    (m.write a v).below n = true := by
  simp only [Memory.below, List.all_eq_true, decide_eq_true_eq] at h ⊢
  intro e he
  unfold Memory.write at he
  split at he
  · exact h e (List.mem_filter.mp he).1
  · rcases Memory.mem_insert he with rfl | he
    · exact ha
    · exact h e he

theorem State.reset_dmem_wf : State.reset.dmem.wf = true := rfl

end Sys2Proof.Machine
end

