-- ==== Sys2Proof/Laws/PerInstr.lean ====
section
/-! SUPPORT. One family of statements made per instruction: the encoder writes a word that the opcode map selects as that
instruction (30_encoding.md R64). -/

namespace Sys2Proof

/-- The row of R64 an instruction belongs to; none for the unmatched class. -/
def Instr.selection : Instr → Option Selection
  | .add _ _ _ _ => some .add
  | .and _ _ _ _ => some .and
  | .slt _ _ _ _ => some .slt
  | .beq _ _ _ => some .beq
  | .addi _ _ _ => some .addi
  | .ori _ _ _ => some .ori
  | .lui _ _ _ => some .lui
  | .lw _ _ _ => some .lw
  | .sw _ _ _ => some .sw
  | .unsupported _ => none

/-- The encoded word of a well-formed instruction selects that instruction's row. -/
def Laws.EncodedSelection.Statement (i : Instr) : Prop := i.wf = true → select (encode i) = i.selection

theorem select_encodeR (rs rt rd shamt : RegIdx) (fn : Code) :
    select (encodeR rs rt rd shamt fn) = selectByFields 0x00#6 fn := by
  rw [select_eq_byFields, fields_encodeR]

theorem select_encodeI (op : Code) (rs rt : RegIdx) (imm : Imm) :
    select (encodeI op rs rt imm) = selectByFields op (imm.extractLsb' 0 6) := by
  rw [select_eq_byFields, fields_encodeI]

theorem Laws.EncodedSelection.add (rs rt rd shamt : RegIdx) : Statement (.add rs rt rd shamt) :=
  fun _ => select_encodeR rs rt rd shamt 0x20#6

theorem Laws.EncodedSelection.and (rs rt rd shamt : RegIdx) : Statement (.and rs rt rd shamt) :=
  fun _ => select_encodeR rs rt rd shamt 0x24#6

theorem Laws.EncodedSelection.slt (rs rt rd shamt : RegIdx) : Statement (.slt rs rt rd shamt) :=
  fun _ => select_encodeR rs rt rd shamt 0x2A#6

theorem Laws.EncodedSelection.beq (rs rt : RegIdx) (imm : Imm) : Statement (.beq rs rt imm) :=
  fun _ => select_encodeI 0x04#6 rs rt imm

theorem Laws.EncodedSelection.addi (rs rt : RegIdx) (imm : Imm) : Statement (.addi rs rt imm) :=
  fun _ => select_encodeI 0x08#6 rs rt imm

theorem Laws.EncodedSelection.ori (rs rt : RegIdx) (imm : Imm) : Statement (.ori rs rt imm) :=
  fun _ => select_encodeI 0x0D#6 rs rt imm

theorem Laws.EncodedSelection.lui (rs rt : RegIdx) (imm : Imm) : Statement (.lui rs rt imm) :=
  fun _ => select_encodeI 0x0F#6 rs rt imm

theorem Laws.EncodedSelection.lw (rs rt : RegIdx) (imm : Imm) : Statement (.lw rs rt imm) :=
  fun _ => select_encodeI 0x23#6 rs rt imm

theorem Laws.EncodedSelection.sw (rs rt : RegIdx) (imm : Imm) : Statement (.sw rs rt imm) :=
  fun _ => select_encodeI 0x2B#6 rs rt imm

theorem Laws.EncodedSelection.unsupported (w : Word) : Statement (.unsupported w) :=
  fun h => Option.isNone_iff_eq_none.mp h

end Sys2Proof
end

