-- ==== Sys2Proof/Laws/State.lean ====
section
/-! SUPPORT. One lemma per field and update, so that no proof unfolds a record; and what each named operation over the
state does. -/

namespace Sys2Proof.Machine

/-! ### Halting -/

@[simp] theorem State.halt_regs (s : State) (f : Fault) : (s.halt f).regs = s.regs := rfl
@[simp] theorem State.halt_pc (s : State) (f : Fault) : (s.halt f).pc = s.pc := rfl
@[simp] theorem State.halt_dmem (s : State) (f : Fault) : (s.halt f).dmem = s.dmem := rfl
@[simp] theorem State.halt_halted (s : State) (f : Fault) : (s.halt f).halted = some f := rfl
@[simp] theorem State.halt_params (s : State) (f : Fault) : (s.halt f).params = s.params := rfl
@[simp] theorem State.halt_readReg (s : State) (f : Fault) (i : RegIdx) : (s.halt f).readReg i = s.readReg i := rfl

/-! ### The register write port -/

@[simp] theorem State.writeReg_pc (s : State) (i : RegIdx) (v : Word) : (s.writeReg i v).pc = s.pc := by
  unfold State.writeReg; split <;> rfl
@[simp] theorem State.writeReg_dmem (s : State) (i : RegIdx) (v : Word) : (s.writeReg i v).dmem = s.dmem := by
  unfold State.writeReg; split <;> rfl
@[simp] theorem State.writeReg_halted (s : State) (i : RegIdx) (v : Word) : (s.writeReg i v).halted = s.halted := by
  unfold State.writeReg; split <;> rfl
@[simp] theorem State.writeReg_params (s : State) (i : RegIdx) (v : Word) : (s.writeReg i v).params = s.params := by
  unfold State.writeReg; split <;> rfl

@[simp] theorem State.readReg_zero (s : State) : s.readReg 0#5 = 0#32 := rfl

@[simp] theorem State.writeReg_zero (s : State) (v : Word) : s.writeReg 0#5 v = s := rfl

/-- All that a register write can do to a register read. -/
theorem State.readReg_writeReg (s : State) (d i : RegIdx) (v : Word) :
    (s.writeReg d v).readReg i = if i = d ∧ i ≠ 0#5 then v else s.readReg i := by
  unfold State.writeReg State.readReg
  by_cases hd : d = 0#5
  · subst hd
    simp only [if_true]
    split
    · simp_all
    · simp_all
  · by_cases hi : i = 0#5
    · simp [hi]
    · simp only [hd, hi, if_false, ne_eq, not_false_eq_true, and_true]
      rw [Vector.getElem_set]
      simp only [BitVec.toNat_inj, eq_comm]

/-- The cell behind register 0 is never written. -/
theorem State.writeReg_cellZero (s : State) (d : RegIdx) (v : Word) : (s.writeReg d v).regs[0] = s.regs[0] := by
  unfold State.writeReg
  split
  · rfl
  · next h =>
    have hd : d.toNat ≠ 0 := fun h0 => h (BitVec.eq_of_toNat_eq (by simpa using h0))
    simp [hd]

/-! ### The memory write port -/

@[simp] theorem State.writeMem_regs (s : State) (a v : Word) : (s.writeMem a v).regs = s.regs := rfl
@[simp] theorem State.writeMem_pc (s : State) (a v : Word) : (s.writeMem a v).pc = s.pc := rfl
@[simp] theorem State.writeMem_dmem (s : State) (a v : Word) : (s.writeMem a v).dmem = s.dmem.write a.toNat v := rfl
@[simp] theorem State.writeMem_halted (s : State) (a v : Word) : (s.writeMem a v).halted = s.halted := rfl
@[simp] theorem State.writeMem_params (s : State) (a v : Word) : (s.writeMem a v).params = s.params := rfl
@[simp] theorem State.writeMem_readReg (s : State) (a v : Word) (i : RegIdx) : (s.writeMem a v).readReg i = s.readReg i := rfl

/-! ### The commit -/

@[simp] theorem State.commit_pc (s : State) (st : Staged) : (s.commit st).pc = st.nextPc := rfl

@[simp] theorem State.commit_halted (s : State) (st : Staged) : (s.commit st).halted = s.halted := by
  obtain ⟨_ | ⟨d, v⟩, _ | ⟨a, w⟩, pc⟩ := st <;> simp [State.commit, State.applyReg, State.applyMem]

@[simp] theorem State.commit_params (s : State) (st : Staged) : (s.commit st).params = s.params := by
  obtain ⟨_ | ⟨d, v⟩, _ | ⟨a, w⟩, pc⟩ := st <;> simp [State.commit, State.applyReg, State.applyMem]

@[simp] theorem State.commit_dmem (s : State) (st : Staged) :
    (s.commit st).dmem = match st.mem with | some (a, v) => s.dmem.write a.toNat v | none => s.dmem := by
  obtain ⟨_ | ⟨d, v⟩, _ | ⟨a, w⟩, pc⟩ := st <;> simp [State.commit, State.applyReg, State.applyMem]

/-- All that a commit can do to a register read. -/
theorem State.commit_readReg (s : State) (st : Staged) (i : RegIdx) :
    (s.commit st).readReg i =
      match st.reg with | some (d, v) => (if i = d ∧ i ≠ 0#5 then v else s.readReg i) | none => s.readReg i := by
  obtain ⟨_ | ⟨d, v⟩, _ | ⟨a, w⟩, pc⟩ := st
  · rfl
  · rfl
  · exact State.readReg_writeReg s d i v
  · exact State.readReg_writeReg s d i v

/-- All that a commit can do to a memory read. -/
theorem State.commit_read (s : State) (st : Staged) (b : Nat) :
    (s.commit st).dmem.read b =
      match st.mem with | some (a, v) => (if b = a.toNat then v else s.dmem.read b) | none => s.dmem.read b := by
  rw [State.commit_dmem]
  split
  · exact Memory.read_write _ _ _ _
  · rfl

theorem State.commit_cellZero (s : State) (st : Staged) : (s.commit st).regs[0] = s.regs[0] := by
  obtain ⟨_ | ⟨d, v⟩, _ | ⟨a, w⟩, pc⟩ := st
  · rfl
  · rfl
  · exact State.writeReg_cellZero s d v
  · exact State.writeReg_cellZero s d v

/-- A commit that stages nothing but the pc. -/
theorem State.commit_pcOnly (s : State) (p : Word) : s.commit { nextPc := p } = { s with pc := p } := rfl

/-- A write to register 0 is discarded: only the pc moves. -/
theorem State.commit_regZero (s : State) (v p : Word) :
    s.commit { reg := some (0#5, v), nextPc := p } = { s with pc := p } := rfl

/-! ### The end of a cycle -/

@[simp] theorem State.conclude_ok (s : State) (st : Staged) : s.conclude (.ok st) = .next (s.commit st) := rfl
@[simp] theorem State.conclude_error (s : State) (f : Fault) : s.conclude (.error f) = .next (s.halt f) := rfl

/-! ### Memory and instruction ports -/

theorem State.inRange_iff (s : State) (a : Word) : s.inRange a = true ↔ a.toNat < s.params.dmemWords := by
  simp [State.inRange]

theorem State.memRead_ok {s : State} {a : Word} (h : a.toNat < s.params.dmemWords) :
    s.memRead a = .ok (s.dmem.read a.toNat) := by
  simp [State.memRead, State.inRange, h]

theorem State.memRead_error {s : State} {a : Word} (h : s.params.dmemWords ≤ a.toNat) :
    s.memRead a = .error (.addressOutOfRange a) := by
  simp [State.memRead, State.inRange, Nat.not_lt.mpr h]

theorem State.stageMem_ok {s : State} {a : Word} (v : Word) (h : a.toNat < s.params.dmemWords) :
    s.stageMem a v = .ok (a, v) := by
  simp [State.stageMem, State.inRange, h]

theorem State.stageMem_error {s : State} {a : Word} (v : Word) (h : s.params.dmemWords ≤ a.toNat) :
    s.stageMem a v = .error (.addressOutOfRange a) := by
  simp [State.stageMem, State.inRange, Nat.not_lt.mpr h]

theorem State.fetchAt_ok_iff (s : State) (a w : Word) :
    s.fetchAt a = .ok w ↔ s.params.image[a.toNat]? = some w := by
  unfold State.fetchAt
  split <;> simp_all

theorem State.fetchAt_outside {s : State} {a : Word} (h : s.params.image.length ≤ a.toNat) :
    s.fetchAt a = .error (.fetchOutOfImage a) := by
  simp [State.fetchAt, List.getElem?_eq_none h]

/-- Two states with the same parameters fetch the same words. -/
theorem State.fetchAt_congr {s t : State} (h : t.params = s.params) (a : Word) : t.fetchAt a = s.fetchAt a := by
  unfold State.fetchAt; rw [h]

@[simp] theorem placeWord_get (l : List Word) (n : Nat) (w : Word) : (placeWord l n w)[n]? = some w := by
  induction l generalizing n with
  | nil => induction n with
    | zero => rfl
    | succ n ih => simpa [placeWord] using ih
  | cons v r ih => cases n with
    | zero => rfl
    | succ n => simpa [placeWord] using ih n

end Sys2Proof.Machine
end

