-- ==== Sys2Proof/Laws/Step.lean ====
section
/-! SUPPORT. What a meaning can do, one lemma per instruction, and what a step can do. -/

namespace Sys2Proof.Machine

theorem exec_add (rs rt rd sh : RegIdx) (s : State) :
    exec (.add rs rt rd sh) s =
      .next (s.commit { reg := some (rd, aluAdd (s.readReg rs) (s.readReg rt)), nextPc := s.pc + 1#32 }) := rfl

theorem exec_and (rs rt rd sh : RegIdx) (s : State) :
    exec (.and rs rt rd sh) s =
      .next (s.commit { reg := some (rd, aluAnd (s.readReg rs) (s.readReg rt)), nextPc := s.pc + 1#32 }) := rfl

theorem exec_slt (rs rt rd sh : RegIdx) (s : State) :
    exec (.slt rs rt rd sh) s =
      .next (s.commit { reg := some (rd, aluSetLessThan (s.readReg rs) (s.readReg rt)), nextPc := s.pc + 1#32 }) := rfl

theorem exec_beq (rs rt : RegIdx) (imm : Imm) (s : State) :
    exec (.beq rs rt imm) s =
      .next (s.commit { nextPc := nextPc s.pc imm true (aluEqual (s.readReg rs) (s.readReg rt)) }) := rfl

theorem exec_addi (rs rt : RegIdx) (imm : Imm) (s : State) :
    exec (.addi rs rt imm) s =
      .next (s.commit { reg := some (rt, aluAdd (s.readReg rs) (sext32 imm)), nextPc := s.pc + 1#32 }) := rfl

theorem exec_ori (rs rt : RegIdx) (imm : Imm) (s : State) :
    exec (.ori rs rt imm) s =
      .next (s.commit { reg := some (rt, aluOr (s.readReg rs) (zext32 imm)), nextPc := s.pc + 1#32 }) := rfl

theorem exec_lui (rs rt : RegIdx) (imm : Imm) (s : State) :
    exec (.lui rs rt imm) s =
      .next (s.commit { reg := some (rt, aluShiftLeft16 (zext32 imm)), nextPc := s.pc + 1#32 }) := rfl

theorem exec_unsupported (w : Word) (s : State) :
    exec (.unsupported w) s = .next (s.commit { nextPc := s.pc + 1#32 }) := rfl

theorem exec_lw_inRange {rs rt : RegIdx} {imm : Imm} {s : State}
    (h : (s.address rs imm).toNat < s.params.dmemWords) :
    exec (.lw rs rt imm) s =
      .next (s.commit { reg := some (rt, s.dmem.read (s.address rs imm).toNat), nextPc := s.pc + 1#32 }) := by
  simp [exec, execLw, State.memRead_ok h, Except.map]

theorem exec_lw_outside {rs rt : RegIdx} {imm : Imm} {s : State}
    (h : s.params.dmemWords ≤ (s.address rs imm).toNat) :
    exec (.lw rs rt imm) s = .next (s.halt (.addressOutOfRange (s.address rs imm))) := by
  simp [exec, execLw, State.memRead_error h, Except.map]

theorem exec_sw_inRange {rs rt : RegIdx} {imm : Imm} {s : State}
    (h : (s.address rs imm).toNat < s.params.dmemWords) :
    exec (.sw rs rt imm) s =
      .next (s.commit { mem := some (s.address rs imm, s.readReg rt), nextPc := s.pc + 1#32 }) := by
  simp [exec, execSw, State.stageMem_ok _ h, Except.map]

theorem exec_sw_outside {rs rt : RegIdx} {imm : Imm} {s : State}
    (h : s.params.dmemWords ≤ (s.address rs imm).toNat) :
    exec (.sw rs rt imm) s = .next (s.halt (.addressOutOfRange (s.address rs imm))) := by
  simp [exec, execSw, State.stageMem_error _ h, Except.map]

/-- All that an instruction can do: commit what it stages, or halt on its address. A staged memory write is in range. -/
theorem exec_cases (i : Instr) (s : State) :
    (∃ st, exec i s = .next (s.commit st) ∧ ∀ a v, st.mem = some (a, v) → a.toNat < s.params.dmemWords) ∨
    (∃ rs rt imm, (i = .lw rs rt imm ∨ i = .sw rs rt imm) ∧
      s.params.dmemWords ≤ (s.address rs imm).toNat ∧
      exec i s = .next (s.halt (.addressOutOfRange (s.address rs imm)))) := by
  cases i with
  | lw rs rt imm =>
    rcases Nat.lt_or_ge (s.address rs imm).toNat s.params.dmemWords with h | h
    · exact .inl ⟨_, exec_lw_inRange h, by simp⟩
    · exact .inr ⟨rs, rt, imm, .inl rfl, h, exec_lw_outside h⟩
  | sw rs rt imm =>
    rcases Nat.lt_or_ge (s.address rs imm).toNat s.params.dmemWords with h | h
    · refine .inl ⟨_, exec_sw_inRange h, ?_⟩
      rintro a v hav
      cases hav
      exact h
    · exact .inr ⟨rs, rt, imm, .inr rfl, h, exec_sw_outside h⟩
  | add => exact .inl ⟨_, exec_add .., by simp⟩
  | and => exact .inl ⟨_, exec_and .., by simp⟩
  | slt => exact .inl ⟨_, exec_slt .., by simp⟩
  | beq => exact .inl ⟨_, exec_beq .., by simp⟩
  | addi => exact .inl ⟨_, exec_addi .., by simp⟩
  | ori => exact .inl ⟨_, exec_ori .., by simp⟩
  | lui => exact .inl ⟨_, exec_lui .., by simp⟩
  | unsupported => exact .inl ⟨_, exec_unsupported .., by simp⟩

/-- All that a step can do: nothing while halted, a halt on the fetch, or the decoded instruction. -/
theorem step_cases (s : State) :
    ((∃ f, s.halted = some f) ∧ step s = .next s) ∨
    (s.halted = none ∧ ∃ f, s.fetch = .error f ∧ step s = .next (s.halt f)) ∨
    (s.halted = none ∧ ∃ w, s.fetch = .ok w ∧ step s = exec (decode w) s) := by
  unfold step
  cases hh : s.halted with
  | some f => exact .inl ⟨⟨f, rfl⟩, rfl⟩
  | none =>
    cases hf : s.fetch with
    | error f => exact .inr (.inl ⟨rfl, f, rfl, rfl⟩)
    | ok w => exact .inr (.inr ⟨rfl, w, rfl, rfl⟩)

@[simp] theorem State.withFetchWord_regs (s : State) (n w : Nat) : (s.withFetchWord n w).regs = s.regs := rfl
@[simp] theorem State.withFetchWord_pc (s : State) (n w : Nat) : (s.withFetchWord n w).pc = s.pc := rfl
@[simp] theorem State.withFetchWord_dmem (s : State) (n w : Nat) : (s.withFetchWord n w).dmem = s.dmem := rfl
@[simp] theorem State.withFetchWord_halted (s : State) (n w : Nat) : (s.withFetchWord n w).halted = none := rfl
@[simp] theorem State.withFetchWord_dmemWords (s : State) (n w : Nat) :
    (s.withFetchWord n w).params.dmemWords = s.params.dmemWords := rfl

/-- The placed word is what the next step fetches. -/
theorem State.withFetchWord_fetch (s : State) (n w : Nat) : (s.withFetchWord n w).fetch = .ok (tableWord n w) :=
  (State.fetchAt_ok_iff _ _ _).mpr (placeWord_get _ _ _)

end Sys2Proof.Machine
end

