-- ==== Sys2Proof/Laws/Run.lean ====
section
/-! SUPPORT. Runs of several cycles, taken apart one step at a time. -/

namespace Sys2Proof.Machine

theorem run_zero (s : State) : core.run 0 s = .next s := rfl

/-- A run goes on from the state its first step reaches. -/
theorem run_of_step {s t : State} (h : step s = .next t) (n : Nat) : core.run (n + 1) s = core.run n t := by
  have unfolded : ∀ (M : Host.Core) (x : M.State), M.run (n + 1) x =
      match M.step x with | .next y => M.run n y | .fault r => .fault r | .refused r => .refused r := fun _ _ => rfl
  have first := unfolded core s
  rw [show core.step s = .next t from h] at first
  exact first

/-- An invariant of the step is an invariant of every run: if it holds before, it holds wherever the run arrives. -/
theorem run_keeps (P : State → Prop) (keep : ∀ s t, P s → step s = .next t → P t) (total : ∀ s, ∃ t, step s = .next t) :
    ∀ (n : Nat) (s t : State), P s → core.run n s = .next t → P t := by
  intro n
  induction n with
  | zero =>
    intro s t hs h
    rw [run_zero] at h
    injection h with h
    exact h ▸ hs
  | succ n ih =>
    intro s t hs h
    obtain ⟨u, hu⟩ := total s
    rw [run_of_step hu] at h
    exact ih u t (keep s u hs hu) h

end Sys2Proof.Machine
end

