-- ==== Sys2Proof/Tests/Slice0.lean ====
section
/-! SUPPORT. The model's own tests: words written out from the spec's encodings, single steps with results from
95_test_vectors.md, a term that WellFormed refuses, and a witness for the hypotheses of every statement. -/

namespace Sys2Proof.Tests

open Sys2Proof.Machine

/-! ### Helpers -/

/-- A running machine with some registers, cells, a bound and an image. -/
def machine (pc : Word) (regs : List (RegIdx × Word)) (dmem : Memory) (words : Nat) (image : List Word) : State :=
  { regs.foldl (fun s e => s.writeReg e.1 e.2) State.reset with
    pc := pc, dmem := dmem, params := { dmemWords := words, image := image } }

/-- The outcome is a next state with this property. -/
def leads (o : Host.Outcome State Fault Refusal) (p : State → Bool) : Bool :=
  match o with
  | .next t => p t
  | .fault _ => false
  | .refused _ => false

/-! ### Decoding (95_test_vectors.md 2.1, 2.3, 2.4, 2.6 to 2.11; the words' bits from 30_encoding.md R64) -/

/-- 000000 00001 00010 00011 00000 100000. -/
theorem test_decode_add : decode 0b000000_00001_00010_00011_00000_100000#32 = .add 1 2 3 0 := by decide
/-- 000000 00001 00010 00101 00000 100100. -/
theorem test_decode_and : decode 0b000000_00001_00010_00101_00000_100100#32 = .and 1 2 5 0 := by decide
/-- 000000 01001 01010 01001 11111 101010: shamt 31 is ignored. -/
theorem test_decode_slt : decode 0b000000_01001_01010_01001_11111_101010#32 = .slt 9 10 9 31 := by decide
theorem test_decode_beq : decode 0b000100_00000_00000_1111111111111111#32 = .beq 0 0 0xFFFF := by decide
theorem test_decode_addi : decode 0b001000_00001_00011_1111111111111110#32 = .addi 1 3 0xFFFE := by decide
theorem test_decode_ori : decode 0b001101_00010_01000_1000000000000000#32 = .ori 2 8 0x8000 := by decide
theorem test_decode_lui : decode 0b001111_11111_00001_1000000000000000#32 = .lui 31 1 0x8000 := by decide
theorem test_decode_lw : decode 0b100011_00010_00111_1111111111111101#32 = .lw 2 7 0xFFFD := by decide
theorem test_decode_sw : decode 0b101011_00011_00001_1111111111111100#32 = .sw 3 1 0xFFFC := by decide
/-- 000000 …, funct 0x21 and 0x2B: one above `add` and one above `slt`; opcode 0x05: one above `beq`. -/
theorem test_decode_unmatched :
    decode 0x00221821#32 = .unsupported 0x00221821#32 ∧ decode 0x0022182B#32 = .unsupported 0x0022182B#32 ∧
    decode 0x14200003#32 = .unsupported 0x14200003#32 := by decide

/-- The encoder on the words of program P3 (95_test_vectors.md). -/
theorem test_encode :
    encode (.lui 0 1 0x8000) = 0x3C018000#32 ∧ encode (.slt 1 2 3 0) = 0x0022182A#32 ∧
    encode (.and 1 2 5 0) = 0x00222824#32 ∧ encode (.add 1 1 6 0) = 0x00213020#32 ∧
    encode (.sw 0 1 2) = 0xAC010002#32 ∧ encode (.lw 2 7 3) = 0x8C470003#32 ∧
    encode (.ori 2 8 0x8000) = 0x34488000#32 ∧ encode (.addi 9 10 0xFFFF) = 0x212AFFFF#32 ∧
    encode (.beq 1 0 3) = 0x10200003#32 := by decide

theorem test_decodeTableWord : decodeTableWord 32 0xAC61FFFC = some (.sw 3 1 0xFFFC) := by decide

/-! ### WellFormed -/

/-- An `unsupported` term that holds the word of an `add` stands for no instruction. -/
theorem test_wf_refuses_matched_word : (Instr.unsupported 0x00221820#32).wf = false := by decide
theorem test_wf_accepts_unmatched_word : (Instr.unsupported 0x00000000#32).wf = true := by decide

/-! ### Single steps -/

/-- 95_test_vectors.md 2.3, second row. -/
theorem test_add_wraps :
    leads (exec (.add 1 2 3 0) (machine 2 [(1, 0x7FFFFFFF), (2, 1)] [] 16 []))
      (fun t => t.readReg 3 == 0x80000000 && t.pc == 3) = true := by decide
/-- 95_test_vectors.md 2.3, `0x00210820`. -/
theorem test_add_aliased :
    leads (exec (.add 1 1 1 0) (machine 0 [(1, 7)] [] 16 [])) (fun t => t.readReg 1 == 0x0E) = true := by decide
/-- 95_test_vectors.md 2.4, first row. -/
theorem test_and :
    leads (exec (.and 1 2 5 0) (machine 0 [(1, 0xFFFF0000), (2, 0x00FFFF00)] [] 16 []))
      (fun t => t.readReg 5 == 0x00FF0000) = true := by decide
/-- 95_test_vectors.md 2.5: (-2147483648, 1) gives 1. -/
theorem test_slt_least :
    leads (exec (.slt 1 2 3 0) (machine 0 [(1, 0x80000000), (2, 1)] [] 16 [])) (fun t => t.readReg 3 == 1) = true := by
  decide
/-- 95_test_vectors.md 2.5: (2147483647, -1) gives 0. -/
theorem test_slt_greatest :
    leads (exec (.slt 1 2 3 0) (machine 0 [(1, 0x7FFFFFFF), (2, 0xFFFFFFFF), (3, 9)] [] 16 []))
      (fun t => t.readReg 3 == 0) = true := by decide
/-- 95_test_vectors.md 2.6: 0x00008000 and -32768 give 0. -/
theorem test_addi_sign_extends :
    leads (exec (.addi 1 2 0x8000) (machine 0 [(1, 0x00008000), (2, 5)] [] 16 []))
      (fun t => t.readReg 2 == 0) = true := by decide
/-- 95_test_vectors.md 2.12, `0x20000007`. -/
theorem test_addi_register_zero :
    leads (exec (.addi 0 0 7) (machine 0 [] [] 16 [])) (fun t => t.readReg 0 == 0 && t.pc == 1) = true := by decide
/-- 95_test_vectors.md 2.7: zero extension. -/
theorem test_ori_zero_extends :
    leads (exec (.ori 1 8 0x8000) (machine 0 [(1, 0)] [] 16 [])) (fun t => t.readReg 8 == 0x00008000) = true := by decide
/-- 95_test_vectors.md 2.8: rs = 31 does not matter. -/
theorem test_lui :
    leads (exec (.lui 31 1 0x8000) (machine 0 [(31, 0xFFFFFFFF), (1, 3)] [] 16 []))
      (fun t => t.readReg 1 == 0x80000000) = true := by decide
/-- 95_test_vectors.md P3, cycle 9: the address wraps to 2. -/
theorem test_lw_address_wraps :
    leads (exec (.lw 2 7 3) (machine 9 [(2, 0xFFFFFFFF)] [(2, 0x80000001)] 3 []))
      (fun t => t.readReg 7 == 0x80000001 && t.pc == 10) = true := by decide
/-- 95_test_vectors.md P5, start A. -/
theorem test_lw_out_of_range :
    leads (exec (.lw 0 1 0xFFFF) (machine 0 [] [] 16 []))
      (fun t => t.halted == some (.addressOutOfRange 0xFFFFFFFF) && t.readReg 1 == 0 && t.pc == 0) = true := by decide
/-- 95_test_vectors.md 2.9, `0xAC410000`. -/
theorem test_sw :
    leads (exec (.sw 2 1 0) (machine 0 [(1, 0xCAFEF00D), (2, 4)] [(4, 0x11111111), (5, 0x22222222)] 16 []))
      (fun t => t.dmem.read 4 == 0xCAFEF00D && t.dmem.read 5 == 0x22222222) = true := by decide
/-- 95_test_vectors.md P4, cycle 3. -/
theorem test_sw_out_of_range :
    leads (exec (.sw 1 1 0) (machine 3 [(1, 16)] [(15, 15)] 16 []))
      (fun t => t.halted == some (.addressOutOfRange 0x10) && t.pc == 3 && t.dmem == [(15, 15)]) = true := by decide
/-- 95_test_vectors.md 2.10: -32768 from pc 0. -/
theorem test_beq_backward :
    leads (exec (.beq 0 0 0x8000) (machine 0 [] [] 16 [])) (fun t => t.pc == 0xFFFF8001) = true := by decide
/-- 95_test_vectors.md 2.10: not taken. -/
theorem test_beq_not_taken :
    leads (exec (.beq 1 0 3) (machine 2 [(1, 3)] [] 16 [])) (fun t => t.pc == 3) = true := by decide
/-- 95_test_vectors.md 2.11: the idle sum of `0x00221822` is beyond the bound and is not checked. -/
theorem test_unsupported_not_bound_checked :
    leads (step (machine 0 [(1, 0xFFFFFFF0)] [] 16 [0x00221822]))
      (fun t => t == { machine 0 [(1, 0xFFFFFFF0)] [] 16 [0x00221822] with pc := 1 }) = true := by decide
/-- A store of zero takes the cell out of the list, so that memory stays canonical. -/
theorem test_sw_zero_unlists :
    leads (exec (.sw 2 0 1) (machine 0 [(2, 4)] [(4, 1), (5, 2)] 16 [])) (fun t => t.dmem == [(4, 1)]) = true := by decide

/-! ### Fetch -/

/-- `lw r0,0(r0)` placed at reset runs as the first instruction. -/
theorem test_step_runs_placed_word :
    leads (step (State.reset.withFetchWord 32 0x8C000000)) (fun t => t.pc == 1 && t.halted == none) = true := by decide
/-- With no image the first fetch halts (70_reset_and_hazards.md R213 with N = 0). -/
theorem test_step_without_image :
    leads (step State.reset) (fun t => t.halted == some (.fetchOutOfImage 0) && t.pc == 0) = true := by decide

/-! ### Witnesses: states and operands that meet the hypotheses of the statements, clause by clause -/

/-- `lw r1,0(r2)` then `sw r1,1(r2)`, a branch to itself, a branch to 1, an unmatched word; cell 14 is the last but one. -/
def sample : State :=
  machine 0 [(1, 0x55), (2, 14)] [(14, 0xAB)] 16 [0x8C410000, 0xAC410001, 0x1000FFFF, 0x1021FFFD, 0x00000000]

theorem witness_DecodeOfEncodeIsTheInstruction :
    (Instr.add 31 31 31 31).wf = true ∧ (Instr.sw 31 0 0x8000).wf = true ∧ (Instr.unsupported 0x3F).wf = true := by decide

theorem witness_TableOrderIsIrrelevant :
    TableRow.holds ⟨.add, 0xFC00003F#32, 0x00000020#32⟩ 0x03FFFFE0#32 = true ∧ opcodeTable.reverse.Perm opcodeTable :=
  ⟨by decide, List.reverse_perm _⟩

theorem witness_UnmatchedClass_funct : UnmatchedByFields 0x0000003F#32 := .inl (by decide)
theorem witness_UnmatchedClass_opcode : UnmatchedByFields 0xFC000020#32 := .inr (by decide)

theorem witness_IgnoredFieldsChangeNothing_shamt :
    (fields 0x00221FE0#32).opcode = 0x00#6 ∧ 0x00221FE0#32 &&& 0xFFFFF83F#32 = 0x00221820#32 &&& 0xFFFFF83F#32 := by decide
theorem witness_IgnoredFieldsChangeNothing_rs :
    (fields 0x3FE18000#32).opcode = 0x0F#6 ∧ 0x3FE18000#32 &&& 0xFC1FFFFF#32 = 0x3C018000#32 &&& 0xFC1FFFFF#32 := by decide
theorem witness_IgnoredFieldsChangeNothing_imm :
    (fields 0x2021FFFF#32).opcode ≠ 0x00#6 ∧ 0x2021FFFF#32 &&& 0xFFFF0000#32 = 0x20210020#32 &&& 0xFFFF0000#32 := by decide

theorem witness_ControlTable : UnmatchedByFields 0x00000021#32 := .inl (by decide)

theorem witness_ControlWordFacts :
    (controlUnit 0x04 0).branch = true ∧ (controlUnit 0x23 0).memRead = true ∧ (controlUnit 0x2B 0).memWrite = true ∧
    (controlUnit 0x00 0x24).destIsRd = true ∧ (controlUnit 0x00 0x24).aluOp = .and ∧
    (controlUnit 0x0D 0).aluOp = .or := by decide

/-- The premise of each instruction's row clause, at a word with every free bit set. -/
theorem witness_RowMeans :
    0x03FFFFE0#32 &&& 0xFC00003F#32 = 0x00000020#32 ∧ 0x03FFFFE4#32 &&& 0xFC00003F#32 = 0x00000024#32 ∧
    0x03FFFFEA#32 &&& 0xFC00003F#32 = 0x0000002A#32 ∧ 0x13FFFFFF#32 &&& 0xFC000000#32 = 0x10000000#32 ∧
    0x23FFFFFF#32 &&& 0xFC000000#32 = 0x20000000#32 ∧ 0x37FFFFFF#32 &&& 0xFC000000#32 = 0x34000000#32 ∧
    0x3FFFFFFF#32 &&& 0xFC000000#32 = 0x3C000000#32 ∧ 0x8FFFFFFF#32 &&& 0xFC000000#32 = 0x8C000000#32 ∧
    0xAFFFFFFF#32 &&& 0xFC000000#32 = 0xAC000000#32 := by decide

theorem witness_OriEffect_afterLui :
    (1 : RegIdx) ≠ 0#5 ∧ ∃ t u, exec (.lui 0 1 0xFFFF) sample = .next t ∧ exec (.ori 1 1 0x8000) t = .next u :=
  ⟨by decide, _, _, rfl, rfl⟩

theorem witness_LwEffect_lastCell : (sample.address 2 1).toNat = 15 ∧ 15 < sample.params.dmemWords := by decide
theorem witness_LwEffect_firstBeyond : (sample.address 2 2).toNat = 16 ∧ sample.params.dmemWords ≤ 16 := by decide
theorem witness_SwEffect_lastCell : (sample.address 2 1).toNat < sample.params.dmemWords := by decide
theorem witness_SwEffect_firstBeyond : sample.params.dmemWords ≤ (sample.address 2 2).toNat := by decide

theorem witness_RegisterRegisterFamily :
    (fields 0x03FFFFEA#32).opcode = 0x00#6 ∧ (fields 0x03FFFFEA#32).funct ∈ ([0x20#6, 0x24#6, 0x2A#6] : List Code) := by
  decide
theorem witness_RegisterImmediateFamily :
    (fields 0x3FFFFFFF#32).opcode ∈ ([0x08#6, 0x0D#6, 0x0F#6] : List Code) := by decide

theorem witness_RegisterZeroIsHardwired_lw :
    (sample.address 2 1).toNat < sample.params.dmemWords ∧ ∃ t, core.run 1 sample = .next t := ⟨by decide, _, rfl⟩

theorem sample_executes_lw : Executes sample 0x8C410000#32 := ⟨rfl, rfl⟩

/-- The word at 0, `lw r1,0(r2)`, is followed by the word at 1. -/
theorem witness_NextPcIsSequentialOrTarget :
    ∃ t, Executes sample 0x8C410000#32 ∧ step sample = .next t ∧ t.Running ∧
      sample.fetchAt t.pc = .ok 0xAC410001#32 := ⟨_, sample_executes_lw, rfl, rfl, rfl⟩

theorem witness_DataAddressIsTheWholeSum : IsAccess (decode 0x8C410000#32) 2 1 0 := .inl (by decide)

theorem witness_UnsupportedEffect :
    Executes { sample with pc := 4 } 0x00000000#32 ∧ UnmatchedByFields 0x00000000#32 := ⟨⟨rfl, rfl⟩, .inl (by decide)⟩

theorem witness_StepRunsTheDecodedInstruction :
    sample.Running ∧ sample.params.image[sample.pc.toNat]? = some 0x8C410000#32 := ⟨rfl, rfl⟩

theorem witness_RegisterWritePort :
    Executes sample 0x8C410000#32 ∧ (∃ t, step sample = .next t ∧ t.Running) ∧
    (controlOf 0x8C410000#32).regWrite = true :=
  ⟨sample_executes_lw, ⟨_, rfl, rfl⟩, by decide⟩

/-- The second instruction stores 0x55 to cell 15, which held zero. -/
theorem witness_DataMemoryChangesOnlyBySw :
    ∃ t, step { sample with pc := 1 } = .next t ∧ t.dmem.read 15 ≠ sample.dmem.read 15 :=
  ⟨_, rfl, by decide⟩
theorem witness_DataMemoryChangesOnlyBySw_bound :
    sample.dmem.below sample.params.dmemWords = true ∧ ∃ t, step { sample with pc := 1 } = .next t :=
  ⟨by decide, _, rfl⟩

/-- `beq r1,r1,-3` at 3 is taken. -/
theorem witness_PcMovesByOneOrByBranch_taken :
    Executes { sample with pc := 3 } 0x1021FFFD#32 ∧
    IsTaken (decode 0x1021FFFD#32) { sample with pc := 3 } 0xFFFD#16 ∧
    ∃ t, step { sample with pc := 3 } = .next t ∧ t.Running :=
  ⟨⟨rfl, rfl⟩, ⟨1, 1, by decide, rfl⟩, _, rfl, rfl⟩
theorem witness_PcMovesByOneOrByBranch_sequential :
    Executes sample 0x8C410000#32 ∧ (∀ imm, ¬IsTaken (decode 0x8C410000#32) sample imm) ∧
    ∃ t, step sample = .next t ∧ t.Running := by
  refine ⟨sample_executes_lw, ?_, _, rfl, rfl⟩
  rintro imm ⟨rs, rt, h, -⟩
  rw [show decode 0x8C410000#32 = .lw 2 1 0 by decide] at h
  cases h

theorem witness_PcMovesByOneOrByBranch_anyPc : ∃ t, exec (.lw 2 1 1) sample = .next t := ⟨_, rfl⟩

theorem witness_OnlyLoadStoreReachDataMemory :
    (∀ rs rt imm, ¬IsAccess (.add 1 2 3 0) rs rt imm) ∧ (1 : RegIdx) ≠ 0#5 ∧
    (∃ t, exec (.addi 2 1 0) sample = .next t) ∧ (∃ t, exec (.lw 2 1 0) sample = .next t) ∧
    Memory.read [(3, 7), (14, 0xAB)] (sample.address 2 0).toNat = sample.dmem.read (sample.address 2 0).toNat ∧
    ∃ t, exec (.sw 2 1 1) sample = .next t := by
  refine ⟨?_, by decide, ⟨_, rfl⟩, ⟨_, rfl⟩, by decide, _, rfl⟩
  rintro rs rt imm (h | h) <;> cases h

/-- A store to the last cell, no cycle between, and the load; then the same with the cycle of `lw r1,0(r2)` between. -/
theorem witness_StoreThenLoadRoundTrip_adjacent :
    ∃ t v, (sample.address 2 1).toNat < sample.params.dmemWords ∧ exec (.sw 2 1 1) sample = .next t ∧
      core.run 0 t = .next t ∧ (∀ k < 0, ∀ x : State, core.run k t = .next x → ¬StoresTo x 15) ∧
      State.address t 2 1 = sample.address 2 1 ∧ (3 : RegIdx) ≠ 0#5 ∧ exec (.lw 2 3 1) t = .next v :=
  ⟨_, _, by decide, rfl, rfl, fun _ h => absurd h (by omega), by decide, by decide, rfl⟩
theorem witness_StoreThenLoadRoundTrip_between :
    ∃ t u v, (sample.address 2 1).toNat < sample.params.dmemWords ∧
      exec (.sw 2 1 1) { sample with pc := 0xFFFFFFFF } = .next t ∧ core.run 1 t = .next u ∧
      (∀ k < 1, ∀ x : State, core.run k t = .next x → ¬StoresTo x 15) ∧
      State.address u 2 1 = sample.address 2 1 ∧ (3 : RegIdx) ≠ 0#5 ∧ exec (.lw 2 3 1) u = .next v := by
  refine ⟨_, _, _, by decide, rfl, rfl, ?_, by decide, by decide, rfl⟩
  intro k hk x hx
  obtain rfl : k = 0 := by omega
  injection hx with hx
  subst hx
  rintro ⟨w, rs, rt, imm, ⟨-, hf⟩, hd, -⟩
  injection hf with hf
  subst hf
  exact absurd hd (by rw [show decode 0x8C410000 = .lw 2 1 0 by decide]; exact nofun)

theorem witness_InstructionMemoryIsConstant : ∃ t, core.run 2 sample = .next t := ⟨_, rfl⟩

/-- The branch at 3 goes to 1, where the store stands. -/
theorem witness_TakenBranchHasNoDelaySlot :
    Executes { sample with pc := 3 } 0x1021FFFD#32 ∧
    IsTaken (decode 0x1021FFFD#32) { sample with pc := 3 } 0xFFFD#16 ∧
    State.fetchAt { sample with pc := 3 } (3#32 + 1#32 + sext32 0xFFFD#16) = .ok 0xAC410001#32 :=
  ⟨⟨rfl, rfl⟩, ⟨1, 1, by decide, rfl⟩, rfl⟩

theorem witness_ReadsPrecedeWrites :
    (2 : RegIdx) ≠ 0#5 ∧ sumMod (sample.readReg 2) (1 : Imm).toInt < sample.params.dmemWords ∧
    (∃ t, exec (.add 2 2 2 0) sample = .next t) ∧ (∃ t, exec (.addi 2 2 1) sample = .next t) ∧
    (∃ t, exec (.lw 2 2 1) sample = .next t) ∧ ∃ t, exec (.sw 2 2 1) sample = .next t :=
  ⟨by decide, by decide, ⟨_, rfl⟩, ⟨_, rfl⟩, ⟨_, rfl⟩, _, rfl⟩

theorem witness_NoLoadDelay_lw :
    Executes sample 0x8C410000#32 ∧ sample.fetchAt (sample.pc + 1#32) = .ok 0xAC410001#32 ∧
    (sample.address 2 0).toNat < sample.params.dmemWords ∧ decode 0x8C410000#32 = .lw 2 1 0 ∧ (1 : RegIdx) ≠ 0#5 :=
  ⟨sample_executes_lw, rfl, by decide, by decide, by decide⟩
theorem witness_NoLoadDelay_sw :
    Executes { sample with pc := 1 } 0xAC410001#32 ∧
    State.fetchAt { sample with pc := 1 } (1#32 + 1#32) = .ok 0x1000FFFF#32 ∧
    (State.address { sample with pc := 1 } 2 1).toNat < sample.params.dmemWords ∧
    decode 0xAC410001#32 = .sw 2 1 1 :=
  ⟨⟨rfl, rfl⟩, rfl, by decide, by decide⟩

/-- With 15 cells the store to cell 15 is the first out of range. -/
theorem witness_AddressOutOfRangeExactly :
    ∃ t, step (machine 1 [(2, 14)] [] 15 [0x8C410000, 0xAC410001]) = .next t ∧
      t.halted = some (.addressOutOfRange 15) := ⟨_, rfl, by decide⟩
theorem witness_AddressOutOfRangeExactly_unbounded :
    (State.Running (machine 0 [] [] (2 ^ 32) [0x8C01FFFF])) ∧
    ∃ t, step (machine 0 [] [] (2 ^ 32) [0x8C01FFFF]) = .next t := ⟨rfl, _, rfl⟩

/-- The image has five words: 4 is the last address inside, 5 the first outside. -/
theorem witness_FetchOutsideTheImageHalts :
    sample.Running ∧ sample.params.image.length ≤ (5 : Word).toNat ∧ (4 : Word).toNat < sample.params.image.length :=
  ⟨rfl, by decide, by decide⟩

theorem witness_FatalCycleCommitsNothing :
    ∃ t, step { sample with pc := 5 } = .next t ∧ t.halted ≠ sample.halted := ⟨_, rfl, by decide⟩

theorem witness_HaltIsAbsorbing : ¬(sample.halt (.fetchOutOfImage 5)).Running := by
  show ¬(some _ = none)
  exact nofun

theorem witness_HaltMarkStaysPrecise :
    sample.HaltPrecise ∧ (State.halt { sample with pc := 5 } (.fetchOutOfImage 5)).HaltPrecise ∧
    ∃ t, step sample = .next t := ⟨trivial, ⟨rfl, by decide⟩, _, rfl⟩

theorem witness_EveryStepKeepsInv :
    State.Inv { sample with pc := 1 } ∧ ∃ t, step { sample with pc := 1 } = .next t :=
  ⟨⟨by decide, by decide, by decide, by decide⟩, _, rfl⟩

/-- The least memory, with its one cell seeded, and register 0 seeded to no effect. -/
def leastParams : Params := { dmemWords := 1, image := [0x8C000000] }
def leastSeeds : Seeds := { regs := Vector.replicate 32 9, dmem := [(0, 0x55555555)] }

theorem witness_BootMeetsInv : (State.boot leastParams leastSeeds).isSome = true := by decide
theorem witness_ResetLeavesZero :
    (State.boot leastParams Seeds.none).isSome = true ∧ 1 ≤ leastParams.dmemWords ∧ leastParams.dmemWords ≤ 2 ^ 32 := by
  decide
theorem witness_FirstCycleExecutesWordZero :
    (State.boot leastParams leastSeeds).isSome = true ∧ leastParams.image[0]? = some 0x8C000000 := by decide
theorem witness_SeedsReplaceResetValues :
    (State.boot leastParams leastSeeds).isSome = true ∧
    ∃ e ∈ ({ regs := leastSeeds.regs, dmem := [(1, 1)] } : Seeds).dmem, leastParams.dmemWords ≤ e.1 :=
  ⟨by decide, (1, 1), by decide, by decide⟩

theorem witness_InspectionReadsTheState :
    31 < 32 ∧ 15 < sample.params.dmemWords ∧ sample.params.dmemWords ≤ 16 := by decide

theorem witness_UnsupportedSignalMarksNoOps : State.unsupportedSignal { sample with pc := 4 } = true := by decide

/-- The self-branch stands at 2. -/
theorem witness_FixedPointsAreSelfBranchOrHalt :
    Executes { sample with pc := 2 } 0x1000FFFF#32 ∧
    IsTaken (decode 0x1000FFFF#32) { sample with pc := 2 } 0xFFFF#16 :=
  ⟨⟨rfl, rfl⟩, 0, 0, by decide, rfl⟩

/-- The last two words of program P1 (95_test_vectors.md), a store and a load, without bound. -/
def straight : State := machine 0 [(3, 15)] [] (2 ^ 32) [0xAC030000, 0x8C040000]

theorem witness_StraightLineRunsToTheEnd :
    straight.Running ∧ straight.pc.toNat + 2 = straight.params.image.length ∧ straight.params.image.length < 2 ^ 32 ∧
    ∀ k w, straight.pc.toNat ≤ k → straight.params.image[k]? = some w →
      (∀ rs rt imm, decode w ≠ .beq rs rt imm) ∧
      (straight.params.dmemWords = 2 ^ 32 ∨ ∀ rs rt imm, ¬IsAccess (decode w) rs rt imm) := by
  refine ⟨rfl, by decide, by decide, fun k w _ hw => ⟨?_, .inl rfl⟩⟩
  match k, hw with
  | 0, hw =>
    obtain rfl : 0xAC030000#32 = w := by injection hw
    rw [show decode 0xAC030000#32 = .sw 0 3 0 by decide]
    exact nofun
  | 1, hw =>
    obtain rfl : 0x8C040000#32 = w := by injection hw
    rw [show decode 0x8C040000#32 = .lw 0 4 0 by decide]
    exact nofun
  | k + 2, hw => exact nomatch hw

end Sys2Proof.Tests
end

section
/-! PROOFS. The two extensions of the immediate (00_scope.md R13) and the signed reading of a word (R12). -/

namespace Sys2Proof.Machine

/-- `signed` of R12 is the library's two's-complement reading, so the library's facts about `toInt` speak of it. -/
theorem signed_eq_toInt (v : Word) : signed v = v.toInt := by
  rw [BitVec.toInt_eq_toNat_cond]
  unfold signed
  split <;> split <;> omega

@[simp] theorem zext32_toNat (v : Imm) : (zext32 v).toNat = v.toNat :=
  BitVec.toNat_setWidth_of_le (by decide)

@[simp] theorem sext32_toInt (v : Imm) : (sext32 v).toInt = v.toInt :=
  BitVec.toInt_signExtend_of_le (by decide)

@[simp] theorem signed_sext32 (v : Imm) : signed (sext32 v) = v.toInt := by
  rw [signed_eq_toInt, sext32_toInt]

theorem sext32_of_bit15_clear {v : Imm} (h : v.getLsbD 15 = false) : sext32 v = zext32 v :=
  BitVec.signExtend_eq_setWidth_of_msb_false (by rw [BitVec.msb_eq_getLsbD_last, h])

/-- With bit 15 set the high half is all ones: the immediate behind sixteen ones. -/
theorem sext32_of_bit15_set {v : Imm} (h : v.getLsbD 15 = true) : sext32 v = 0xFFFF#16 ++ v := by
  have hmsb : v.msb = true := by rw [BitVec.msb_eq_getLsbD_last, h]
  unfold sext32
  rw [BitVec.signExtend_eq_append_of_le (by decide), if_pos hmsb]
  rfl

/-- R13's case split, on the numbers. -/
theorem sext32_toNat (v : Imm) :
    (sext32 v).toNat = if v.getLsbD 15 = true then 0xFFFF0000 ||| v.toNat else v.toNat := by
  split
  case isTrue h => rw [sext32_of_bit15_set h, BitVec.toNat_append]; rfl
  case isFalse h => rw [sext32_of_bit15_clear (Bool.eq_false_of_not_eq_true h), zext32_toNat]

/-- Settles O11: R13's two extensions, from the value of each on the numbers and the signed reading of `sext32`. -/
theorem immediateExtensions : Obligations.ImmediateExtensions := fun v =>
  ⟨sext32_toNat v, zext32_toNat v, signed_sext32 v, v.le_toInt, v.toInt_le⟩

end Sys2Proof.Machine
end

section
/-! PROOFS. What a cycle does to each part of the state (10_state.md R23, R28, R33, R34): one inversion of `exec`, which
says what an instruction stages at any pc, and one of `step`, from which every statement about the state's parts follows. -/

namespace Sys2Proof.Machine

/-! ### What an instruction stages -/

/-- The register write that an instruction stages when its cycle completes (R28: never a function of the pc). -/
def regWriteOf : Instr → State → Option (RegIdx × Word)
  | .add rs rt rd _, s => some (rd, aluAdd (s.readReg rs) (s.readReg rt))
  | .and rs rt rd _, s => some (rd, aluAnd (s.readReg rs) (s.readReg rt))
  | .slt rs rt rd _, s => some (rd, aluSetLessThan (s.readReg rs) (s.readReg rt))
  | .addi rs rt imm, s => some (rt, aluAdd (s.readReg rs) (sext32 imm))
  | .ori rs rt imm, s => some (rt, aluOr (s.readReg rs) (zext32 imm))
  | .lui _ rt imm, _ => some (rt, aluShiftLeft16 (zext32 imm))
  | .lw rs rt imm, s => some (rt, s.dmem.read (s.address rs imm).toNat)
  | _, _ => none

/-- The memory write that an instruction stages when its cycle completes: only `sw` has one (R33). -/
def storeOf : Instr → State → Option (Word × Word)
  | .sw rs rt imm, s => some (s.address rs imm, s.readReg rt)
  | _, _ => none

/-- The address of an instruction's store, where it has one, exists (20_memory.md R43). -/
def StoreInRange (i : Instr) (s : State) : Prop :=
  ∀ c, storeOf i s = some c → c.1.toNat < s.params.dmemWords

/-- The pc that an instruction stages when its cycle completes: only `beq` can leave the sequence (R28, R151). -/
def pcAfter : Instr → State → Word
  | .beq rs rt imm, s => nextPc s.pc imm true (aluEqual (s.readReg rs) (s.readReg rt))
  | _, s => s.pc + 1#32

/-- What an instruction stages when its cycle completes. -/
def stagedOf (i : Instr) (s : State) : Staged :=
  { reg := regWriteOf i s, mem := storeOf i s, nextPc := pcAfter i s }

/-- Another pc changes nothing that is staged but the next pc. -/
theorem stagedOf_atPc (i : Instr) (s : State) (p : Word) :
    stagedOf i { s with pc := p } = { stagedOf i s with nextPc := pcAfter i { s with pc := p } } := by
  cases i <;> rfl

theorem eq_sw_of_storeOf_eq_some {i : Instr} {s : State} {c : Word × Word} (h : storeOf i s = some c) :
    ∃ rs rt imm, i = .sw rs rt imm ∧ c = (s.address rs imm, s.readReg rt) := by
  unfold storeOf at h
  split at h
  case h_1 rs rt imm => exact ⟨rs, rt, imm, rfl, (Option.some.inj h).symm⟩
  case h_2 => cases h

theorem pcAfter_of_taken {i : Instr} {s : State} {imm : Imm} (h : IsTaken i s imm) :
    pcAfter i s = s.pc + 1#32 + sext32 imm := by
  obtain ⟨rs, rt, rfl, heq⟩ := h
  simp [pcAfter, nextPc, aluEqual, heq]

theorem pcAfter_of_not_taken {i : Instr} {s : State} (h : ∀ imm, ¬IsTaken i s imm) : pcAfter i s = s.pc + 1#32 := by
  unfold pcAfter
  split
  case h_1 rs rt imm =>
    have hne : s.readReg rs ≠ s.readReg rt := fun heq => h imm ⟨rs, rt, rfl, heq⟩
    simp [nextPc, aluEqual, hne]
  case h_2 => rfl

/-- All that an instruction can do, at any pc: commit what it stages, a store only in range, or halt. Which of the two,
and the halt itself, do not depend on the pc. -/
theorem exec_commits_or_halts_atPc (i : Instr) (s : State) :
    (StoreInRange i s ∧
      ∀ p, exec i { s with pc := p } = .next (State.commit { s with pc := p } (stagedOf i { s with pc := p }))) ∨
    ∃ f, ∀ p, exec i { s with pc := p } = .next (State.halt { s with pc := p } f) := by
  cases i with
  | lw rs rt imm =>
    rcases Nat.lt_or_ge (s.address rs imm).toNat s.params.dmemWords with h | h
    · exact .inl ⟨nofun, fun p => exec_lw_inRange (s := { s with pc := p }) h⟩
    · exact .inr ⟨.addressOutOfRange (s.address rs imm), fun p => exec_lw_outside (s := { s with pc := p }) h⟩
  | sw rs rt imm =>
    rcases Nat.lt_or_ge (s.address rs imm).toNat s.params.dmemWords with h | h
    · exact .inl ⟨fun c hc => Option.some.inj hc ▸ h, fun p => exec_sw_inRange (s := { s with pc := p }) h⟩
    · exact .inr ⟨.addressOutOfRange (s.address rs imm), fun p => exec_sw_outside (s := { s with pc := p }) h⟩
  | beq => exact .inl ⟨nofun, fun _ => exec_beq ..⟩
  | unsupported => exact .inl ⟨nofun, fun _ => exec_unsupported ..⟩
  | add => exact .inl ⟨nofun, fun _ => exec_add ..⟩
  | and => exact .inl ⟨nofun, fun _ => exec_and ..⟩
  | slt => exact .inl ⟨nofun, fun _ => exec_slt ..⟩
  | addi => exact .inl ⟨nofun, fun _ => exec_addi ..⟩
  | ori => exact .inl ⟨nofun, fun _ => exec_ori ..⟩
  | lui => exact .inl ⟨nofun, fun _ => exec_lui ..⟩

/-- All that an executed instruction can do, at the pc of its state. -/
theorem exec_commits_or_halts {i : Instr} {s t : State} (h : exec i s = .next t) :
    (StoreInRange i s ∧ t = s.commit (stagedOf i s)) ∨ ∃ f, t = s.halt f := by
  obtain ⟨hbound, hexec⟩ | ⟨f, hexec⟩ := exec_commits_or_halts_atPc i s
  · exact .inl ⟨hbound, Host.Outcome.next.inj (h.symm.trans (hexec s.pc))⟩
  · exact .inr ⟨f, Host.Outcome.next.inj (h.symm.trans (hexec s.pc))⟩

/-! ### What a step does -/

theorem step_of_executes {s : State} {w : Word} (h : Executes s w) : step s = exec (decode w) s := by
  obtain ⟨hrun, hfetch⟩ := h
  unfold step
  rw [show s.halted = none from hrun, hfetch]

/-- All that a step can do: touch nothing but the mark, or commit what the executed instruction stages. -/
theorem step_marks_or_commits {s t : State} (h : step s = .next t) :
    (∃ m, t = { s with halted := m }) ∨
    ∃ w, Executes s w ∧ StoreInRange (decode w) s ∧ t = s.commit (stagedOf (decode w) s) := by
  obtain ⟨-, hstep⟩ | ⟨-, f, -, hstep⟩ | ⟨hrun, w, hfetch, hstep⟩ := step_cases s
  · exact .inl ⟨s.halted, Host.Outcome.next.inj (h.symm.trans hstep)⟩
  · exact .inl ⟨some f, Host.Outcome.next.inj (h.symm.trans hstep)⟩
  · obtain ⟨hbound, hcommit⟩ | ⟨f, ht⟩ := exec_commits_or_halts (hstep.symm.trans h)
    · exact .inr ⟨w, ⟨hrun, hfetch⟩, hbound, hcommit⟩
    · exact .inl ⟨some f, ht⟩

/-- No step faults or is refused. -/
theorem step_total (s : State) : ∃ t, step s = .next t := by
  obtain ⟨-, hstep⟩ | ⟨-, f, -, hstep⟩ | ⟨-, w, -, hstep⟩ := step_cases s
  · exact ⟨s, hstep⟩
  · exact ⟨_, hstep⟩
  · obtain ⟨st, hexec, -⟩ | ⟨_, _, _, -, -, hexec⟩ := exec_cases (decode w) s
    · exact ⟨_, hstep.trans hexec⟩
    · exact ⟨_, hstep.trans hexec⟩

theorem step_params {s t : State} (h : step s = .next t) : t.params = s.params := by
  obtain ⟨m, rfl⟩ | ⟨w, -, -, rfl⟩ := step_marks_or_commits h
  · rfl
  · exact State.commit_params ..

/-- All that a step can do to data memory: nothing, or the one write of a store in range. -/
theorem step_dmem {s t : State} (h : step s = .next t) :
    t.dmem = s.dmem ∨ ∃ a v, StoresTo s a ∧ t.dmem = s.dmem.write a v := by
  obtain ⟨m, rfl⟩ | ⟨w, hexec, hbound, rfl⟩ := step_marks_or_commits h
  · exact .inl rfl
  · simp only [State.commit_dmem, stagedOf]
    cases hstore : storeOf (decode w) s with
    | none => exact .inl rfl
    | some c =>
      obtain ⟨rs, rt, imm, hsw, rfl⟩ := eq_sw_of_storeOf_eq_some hstore
      exact .inr ⟨_, _, ⟨w, rs, rt, imm, hexec, hsw, rfl, hbound _ hstore⟩, rfl⟩

theorem StoresTo.lt_dmemWords {s : State} {a : Nat} (h : StoresTo s a) : a < s.params.dmemWords := by
  obtain ⟨_, _, _, _, -, -, -, hlt⟩ := h
  exact hlt

/-- A cycle that executes a word and does not halt commits that instruction's next pc. -/
theorem step_pc_of_executes {s t : State} {w : Word} (hexec : Executes s w) (h : step s = .next t) (hrun : t.Running) :
    t.pc = pcAfter (decode w) s := by
  rw [step_of_executes hexec] at h
  obtain ⟨-, rfl⟩ | ⟨f, rfl⟩ := exec_commits_or_halts h
  · rfl
  · cases hrun

/-! ### Another pc -/

/-- The commit takes nothing from the pc it replaces. -/
theorem State.commit_atPc (s : State) (st : Staged) (p q : Word) :
    State.commit { s with pc := p } { st with nextPc := q } = { s.commit st with pc := q } := by
  obtain ⟨reg, mem, n⟩ := st
  have hreg : State.applyReg { s with pc := p } reg = { s.applyReg reg with pc := p } := by
    cases reg with
    | none => rfl
    | some c =>
      simp only [State.applyReg, State.writeReg]
      split <;> rfl
  simp only [State.commit, hreg]
  cases mem <;> rfl

/-- Executed at another pc, an instruction reaches the same state but for the pc. -/
theorem exec_atPc {i : Instr} {s t : State} (p : Word) (h : exec i s = .next t) :
    ∃ q, exec i { s with pc := p } = .next { t with pc := q } := by
  obtain ⟨-, hexec⟩ | ⟨f, hexec⟩ := exec_commits_or_halts_atPc i s
  · obtain rfl := Host.Outcome.next.inj (h.symm.trans (hexec s.pc))
    exact ⟨_, by rw [hexec p, stagedOf_atPc, State.commit_atPc]⟩
  · obtain rfl := Host.Outcome.next.inj (h.symm.trans (hexec s.pc))
    exact ⟨p, hexec p⟩

/-! ### The statements -/

/-- Settles O32: a step either keeps data memory or writes the one cell of a store in range (`step_dmem`). -/
theorem dataMemoryChangesOnlyBySw : Obligations.DataMemoryChangesOnlyBySw := by
  constructor
  · intro s t a h hne
    obtain hkept | ⟨c, v, hstore, hwrite⟩ := step_dmem h
    · exact absurd (congrArg (·.read a) hkept) hne
    · rw [hwrite] at hne ⊢
      have hac : a = c := by
        by_contra hac
        exact hne (Memory.read_write_other _ v hac)
      subst hac
      exact ⟨hstore, fun b hb => Memory.read_write_other _ v hb⟩
  · intro s t hbelow h
    rw [step_params h]
    obtain hkept | ⟨c, v, hstore, hwrite⟩ := step_dmem h
    · rwa [hkept]
    · rw [hwrite]
      exact Memory.write_below hstore.lt_dmemWords hbelow

/-- Settles O33: the committed pc is the instruction's `pcAfter`, and another pc before changes only the pc after. -/
theorem pcMovesByOneOrByBranch : Obligations.PcMovesByOneOrByBranch := by
  constructor
  · intro s t w hexec h hrun
    rw [step_pc_of_executes hexec h hrun]
    exact ⟨fun _ => pcAfter_of_taken, pcAfter_of_not_taken⟩
  · intro i s t p h
    obtain ⟨q, hq⟩ := exec_atPc p h
    exact ⟨_, hq, fun _ => rfl, fun _ => rfl, rfl, rfl⟩

/-- Settles O36: every step keeps the parameters, so every run does, and a fetch reads nothing else. -/
theorem instructionMemoryIsConstant : Obligations.InstructionMemoryIsConstant := by
  intro n s t h
  have hparams : State.params t = s.params :=
    run_keeps (fun u => u.params = s.params) (fun _ _ hu hstep => (step_params hstep).trans hu) step_total n s t rfl h
  exact ⟨hparams, State.fetchAt_congr hparams⟩

/-- Settles O26: a staged write to register 0 leaves a commit that moves only the pc (`State.commit_regZero`). -/
theorem registerZeroIsHardwired : Obligations.RegisterZeroIsHardwired := by
  intro s
  refine ⟨s.readReg_zero, s.writeReg_zero, fun rs rt shamt => ⟨?_, ?_, ?_⟩,
    fun rs imm => ⟨?_, ?_, ?_, fun hlt => ?_⟩, fun _ t _ => State.readReg_zero t⟩
  · rw [exec_add, State.commit_regZero]
  · rw [exec_and, State.commit_regZero]
  · rw [exec_slt, State.commit_regZero]
  · rw [exec_addi, State.commit_regZero]
  · rw [exec_ori, State.commit_regZero]
  · rw [exec_lui, State.commit_regZero]
  · rw [exec_lw_inRange hlt, State.commit_regZero]

end Sys2Proof.Machine
end

section
/-! PROOFS. The memory map (20_memory.md R42, R51): the data address as a sum of integers and as the datapath's ALU result,
and the instruction port. -/

namespace Sys2Proof.Machine

/-! ### Selection and control word -/

/-- The decoder makes an instruction of the row it selects. -/
theorem selection_decode (w : Word) : (decode w).selection = select w := by
  unfold decode
  split <;> next hsel => exact hsel.symm

/-- The control word of each row of the opcode map (40_datapath.md R83, R84). -/
def controlFor : Option Selection → ControlWord
  | some .add  => ⟨true, true, .register, .add, false, false, false⟩
  | some .and  => ⟨true, true, .register, .and, false, false, false⟩
  | some .slt  => ⟨true, true, .register, .setLessThan, false, false, false⟩
  | some .beq  => ⟨false, false, .register, .equal, false, false, true⟩
  | some .addi => ⟨true, false, .signExtendedImm, .add, false, false, false⟩
  | some .ori  => ⟨true, false, .zeroExtendedImm, .or, false, false, false⟩
  | some .lui  => ⟨true, false, .zeroExtendedImm, .shiftLeft16, false, false, false⟩
  | some .lw   => ⟨true, false, .signExtendedImm, .add, true, false, false⟩
  | some .sw   => ⟨false, false, .signExtendedImm, .add, false, true, false⟩
  | none       => disabledWord

/-- The control unit, which looks `(opcode, funct)` up on its own, follows the selection made by the opcode map.
The two lookups test their opcodes in one order but for `beq`. -/
theorem controlOf_eq_controlFor (w : Word) : controlOf w = controlFor (select w) := by
  rw [select_eq_byFields]
  unfold controlOf controlUnit controlR selectByFields
  generalize (fields w).opcode = opcode
  by_cases hbeq : opcode = 0x04#6
  · subst hbeq; rfl
  · rw [if_neg hbeq, if_neg hbeq]
    split_ifs <;> rfl

/-! ### The data address -/

/-- Addition of words is addition of the first, as a number, and the second, as a signed number, modulo 2^32. -/
theorem toNat_add_eq_sumMod (a b : Word) : (a + b).toNat = sumMod a b.toInt := by
  rw [BitVec.toNat_add, BitVec.toInt_eq_toNat_cond]
  unfold sumMod
  split <;> omega

theorem State.address_toNat (s : State) (rs : RegIdx) (imm : Imm) :
    (s.address rs imm).toNat = sumMod (s.readReg rs) imm.toInt := by
  rw [← sext32_toInt]
  exact toNat_add_eq_sumMod ..

/-- Under the control words of `lw` and `sw` the ALU adds the base register and the sign-extended immediate. -/
theorem State.aluOf_result_of_select {s : State} {w : Word} (h : select w = some .lw ∨ select w = some .sw) :
    (s.aluOf w).result = s.address (fields w).rs (fields w).imm := by
  unfold State.aluOf
  rw [controlOf_eq_controlFor]
  obtain h | h := h
  · rw [h]; rfl
  · rw [h]; rfl

theorem State.aluOf_result_of_isAccess {s : State} {w : Word} {rs rt : RegIdx} {imm : Imm}
    (h : IsAccess (decode w) rs rt imm) : (s.aluOf w).result = s.address rs imm := by
  obtain h | h := h
  · have hsel : select w = some .lw := by rw [← selection_decode, h]; rfl
    obtain ⟨rfl, rfl, rfl⟩ := Instr.lw.inj (h.symm.trans (decode_of_select_lw hsel))
    exact State.aluOf_result_of_select (.inl hsel)
  · have hsel : select w = some .sw := by rw [← selection_decode, h]; rfl
    obtain ⟨rfl, rfl, rfl⟩ := Instr.sw.inj (h.symm.trans (decode_of_select_sw hsel))
    exact State.aluOf_result_of_select (.inr hsel)

/-! ### The statements -/

/-- Settles O13: the address is the sum of integers, the bound check sees that number, and the ALU computes it. -/
theorem dataAddressIsTheWholeSum : Obligations.DataAddressIsTheWholeSum := fun s rs imm =>
  ⟨s.address_toNat rs imm, by rw [State.inRange_iff, State.address_toNat], fun _ _ => State.aluOf_result_of_isAccess⟩

/-- Settles O27: a word of the image at the pc is the word the port delivers, so the running machine executes it. -/
theorem stepRunsTheDecodedInstruction : Obligations.StepRunsTheDecodedInstruction := by
  intro s w hrun himage
  have hfetch : s.fetchAt s.pc = .ok w := (State.fetchAt_ok_iff s s.pc w).mpr himage
  exact ⟨hfetch, step_of_executes ⟨hrun, hfetch⟩⟩

end Sys2Proof.Machine
end

section
/-! PROOFS. The encoding (30_encoding.md R61, R67): the fields as numbers, the unmatched class by its fields, and how many
words it has, counted through the fact that every pair `(opcode, funct)` stands in equally many words. -/

namespace Sys2Proof

/-! ### The fields as numbers -/

/-- A slice of a word, as a number, is a shift and a mask. -/
theorem extract_toNat_eq_shift_and (w : Word) (start len : Nat) :
    (w.extractLsb' start len).toNat = (w.toNat >>> start) &&& (2 ^ len - 1) := by
  rw [BitVec.extractLsb'_toNat, Nat.and_two_pow_sub_one_eq_mod]

/-- The opcode is the top field: the shift alone leaves nothing to mask. -/
theorem fields_opcode_toNat (w : Word) : (fields w).opcode.toNat = w.toNat >>> 26 := by
  have htop : w.toNat >>> 26 < 2 ^ 6 := by
    rw [Nat.shiftRight_eq_div_pow]
    exact Nat.div_lt_of_lt_mul w.isLt
  exact (BitVec.extractLsb'_toNat ..).trans (Nat.mod_eq_of_lt htop)

/-- The function code is the bottom field: nothing is shifted out. -/
theorem fields_funct_toNat (w : Word) : (fields w).funct.toNat = w.toNat % 2 ^ 6 := BitVec.extractLsb'_toNat ..

/-- `imm` is the other three low fields side by side. -/
theorem fields_imm_eq_append (w : Word) : (fields w).imm = (fields w).rd ++ (fields w).shamt ++ (fields w).funct := by
  have hhigh : w.extractLsb' 11 5 ++ w.extractLsb' 6 5 = w.extractLsb' 6 10 :=
    BitVec.extractLsb'_append_extractLsb'_eq_extractLsb' rfl
  have hall : w.extractLsb' 6 10 ++ w.extractLsb' 0 6 = w.extractLsb' 0 16 :=
    BitVec.extractLsb'_append_extractLsb'_eq_extractLsb' rfl
  exact hall.symm.trans (congrArg (· ++ w.extractLsb' 0 6) hhigh.symm)

/-- Settles O4: every field is a slice, so a shift and a mask, and the slices of `imm` join up. -/
theorem fieldsAreShiftAndMask : Obligations.FieldsAreShiftAndMask := fun w =>
  ⟨fields_opcode_toNat w, extract_toNat_eq_shift_and w 21 5, extract_toNat_eq_shift_and w 16 5,
    extract_toNat_eq_shift_and w 11 5, extract_toNat_eq_shift_and w 6 5, extract_toNat_eq_shift_and w 0 6,
    extract_toNat_eq_shift_and w 0 16, fields_imm_eq_append w⟩

/-! ### The unmatched class by its fields -/

/-- The pairs `(opcode, funct)` that select no row, as R67 lists them. -/
theorem selectByFields_isNone_iff (opcode funct : Code) :
    (selectByFields opcode funct).isNone = true ↔
      (opcode = 0x00#6 ∧ funct ∉ ([0x20#6, 0x24#6, 0x2A#6] : List Code)) ∨
      opcode ∉ ([0x00#6, 0x04#6, 0x08#6, 0x0D#6, 0x0F#6, 0x23#6, 0x2B#6] : List Code) := by
  unfold selectByFields
  by_cases h0 : opcode = 0x00#6
  · rw [if_pos h0]
    split_ifs <;> simp [*]
  · rw [if_neg h0]
    split_ifs <;> simp [*]

theorem unmatched_iff_byFields (w : Word) : unmatched w = true ↔ Machine.UnmatchedByFields w := by
  rw [unmatched_eq_byFields]
  exact selectByFields_isNone_iff ..

/-! ### Counting words by their fields -/

/-- A count over `a` blocks of `b` numbers is the sum of the blocks' counts. -/
theorem count_mul_eq_sum_blocks (p : Nat → Prop) [DecidablePred p] (a b : Nat) :
    Nat.count p (a * b) = ∑ i ∈ Finset.range a, Nat.count (fun k => p (i * b + k)) b := by
  induction a with
  | zero => simp
  | succ a ih => rw [Nat.succ_mul, Nat.count_add, Finset.sum_range_succ, ih]

theorem count_congr_below {p q : Nat → Prop} [DecidablePred p] [DecidablePred q] {n : Nat}
    (h : ∀ k < n, (p k ↔ q k)) : Nat.count p n = Nat.count q n := by
  rw [Nat.count_eq_card_filter_range, Nat.count_eq_card_filter_range]
  exact congrArg _ (Finset.filter_congr fun k hk => h k (Finset.mem_range.mp hk))

theorem count_false_add_count_true (f : Nat → Bool) (n : Nat) :
    Nat.count (fun k => f k = false) n + Nat.count (fun k => f k = true) n = n := by
  induction n with
  | zero => rfl
  | succ n ih =>
    rw [Nat.count_succ, Nat.count_succ]
    cases f n
    · simp only [if_true, Bool.false_eq_true, if_false]; omega
    · simp only [if_true, Bool.true_eq_false, if_false]; omega

/-- The count of the complement, for a count whose value is known: a closed count in a difference would be evaluated. -/
theorem count_true_of_count_false {f : Nat → Bool} {n m : Nat} (h : Nat.count (fun k => f k = false) n = m) :
    Nat.count (fun k => f k = true) n = n - m := by
  rw [← h]
  exact Nat.eq_sub_of_add_eq' (count_false_add_count_true f n)

/-- The number whose top part is `i` and whose last six bits are `l` is a word with opcode `i`. -/
theorem fields_opcode_ofNat {i j l : Nat} (hj : j < 2 ^ 20) (hl : l < 64) :
    (fields (BitVec.ofNat 32 (i * (2 ^ 20 * 64) + (j * 64 + l)))).opcode = BitVec.ofNat 6 i := by
  apply BitVec.eq_of_toNat_eq
  rw [fields_opcode_toNat, BitVec.toNat_ofNat, BitVec.toNat_ofNat, Nat.shiftRight_eq_div_pow]
  omega

theorem fields_funct_ofNat (i j l : Nat) :
    (fields (BitVec.ofNat 32 (i * (2 ^ 20 * 64) + (j * 64 + l)))).funct = BitVec.ofNat 6 l := by
  apply BitVec.eq_of_toNat_eq
  rw [fields_funct_toNat, BitVec.toNat_ofNat, BitVec.toNat_ofNat]
  omega

/-- Every pair `(opcode, funct)` stands in exactly 2^20 words. -/
theorem count_words_by_opcode_funct (Q : Code → Code → Prop) [∀ c d, Decidable (Q c d)] :
    Nat.count (fun n => Q (fields (BitVec.ofNat 32 n)).opcode (fields (BitVec.ofNat 32 n)).funct) (2 ^ 32) =
      2 ^ 20 * ∑ i ∈ Finset.range 64, Nat.count (fun l => Q (BitVec.ofNat 6 i) (BitVec.ofNat 6 l)) 64 := by
  rw [show 2 ^ 32 = 64 * (2 ^ 20 * 64) by norm_num, count_mul_eq_sum_blocks, Finset.mul_sum]
  refine Finset.sum_congr rfl fun i _ => ?_
  rw [count_mul_eq_sum_blocks, Finset.sum_eq_card_nsmul, Finset.card_range, smul_eq_mul]
  intro j hj
  refine count_congr_below fun l hl => ?_
  rw [fields_opcode_ofNat (Finset.mem_range.mp hj) hl, fields_funct_ofNat]

/-- How many of the 64 function codes are matched under an opcode. -/
theorem count_matched_functs (opcode : Code) :
    Nat.count (fun l => (selectByFields opcode (BitVec.ofNat 6 l)).isNone = false) 64 =
      if opcode = 0x00#6 then 3
      else if opcode ∈ ([0x04#6, 0x08#6, 0x0D#6, 0x0F#6, 0x23#6, 0x2B#6] : List Code) then 64 else 0 := by
  by_cases h0 : opcode = 0x00#6
  · subst h0
    decide
  · have hmatched (funct : Code) : (selectByFields opcode funct).isNone = false ↔
        opcode ∈ ([0x04#6, 0x08#6, 0x0D#6, 0x0F#6, 0x23#6, 0x2B#6] : List Code) := by
      rw [← Bool.not_eq_true, selectByFields_isNone_iff, or_iff_right fun h => h0 h.1, not_not, List.mem_cons,
        or_iff_right h0]
    rw [if_neg h0]
    split
    case isTrue hmem => exact Nat.count_of_forall fun _ _ => (hmatched _).mpr hmem
    case isFalse hmem => exact Nat.count_of_forall_not fun _ _ h => hmem ((hmatched _).mp h)

/-- `6 * 2^26 + 3 * 2^20` words are matched (R67). -/
theorem count_matched_words :
    Nat.count (fun n => unmatched (BitVec.ofNat 32 n) = false) (2 ^ 32) = 6 * 2 ^ 26 + 3 * 2 ^ 20 := by
  simp only [unmatched_eq_byFields]
  rw [count_words_by_opcode_funct fun c d => (selectByFields c d).isNone = false]
  simp only [count_matched_functs]
  decide

theorem count_unmatched_words :
    Nat.count (fun n => unmatched (BitVec.ofNat 32 n) = true) (2 ^ 32) = 2 ^ 32 - (6 * 2 ^ 26 + 3 * 2 ^ 20) :=
  count_true_of_count_false (f := fun n => unmatched (BitVec.ofNat 32 n)) count_matched_words

end Sys2Proof

namespace Sys2Proof.Machine

/-- An unmatched word has the disabled control word and does nothing but advance the pc (R67, R160). -/
theorem unmatched_is_noop {w : Word} (h : UnmatchedByFields w) :
    controlOf w = disabledWord ∧ ∀ s : State, exec (decode w) s = .next { s with pc := s.pc + 1#32 } := by
  have hw : unmatched w = true := (unmatched_iff_byFields w).mpr h
  constructor
  · rw [controlOf_eq_controlFor, Option.isNone_iff_eq_none.mp hw]
    rfl
  · intro s
    rw [decode_unmatched hw, exec_unsupported, State.commit_pcOnly]

/-- Settles O6: the class by its fields, what its words do, and the counts of `count_matched_words` in figures. -/
theorem unmatchedClass : Obligations.UnmatchedClass :=
  ⟨unmatched_iff_byFields, fun _ => unmatched_is_noop, by decide, by decide, count_matched_words, count_unmatched_words⟩

end Sys2Proof.Machine
end

section
/-! PROOFS. The datapath's blocks (40_datapath.md R83, R88 to R94, R99): the control table, the ALU and the pc unit. -/

namespace Sys2Proof.Machine

/-! ### Control unit -/

/-- Settles O8: each row is a lookup, and an unmatched word has the disabled word (`unmatched_is_noop`). -/
theorem controlTable : Obligations.ControlTable :=
  ⟨rfl, rfl, rfl, fun _ => ⟨rfl, rfl, rfl, rfl, rfl, rfl⟩, fun _ h => (unmatched_is_noop h).1⟩

/-! ### ALU -/

theorem aluAdd_toNat (a b : Word) : (aluAdd a b).toNat = (a.toNat + b.toNat) % 2 ^ 32 := BitVec.toNat_add a b

theorem aluAnd_getLsbD (a b : Word) (i : Nat) : (aluAnd a b).getLsbD i = (a.getLsbD i && b.getLsbD i) :=
  BitVec.getLsbD_and

theorem aluOr_getLsbD (a b : Word) (i : Nat) : (aluOr a b).getLsbD i = (a.getLsbD i || b.getLsbD i) :=
  BitVec.getLsbD_or

theorem aluSetLessThan_toNat (a b : Word) :
    (aluSetLessThan a b).toNat = if signed a < signed b then 1 else 0 := by
  rw [signed_eq_toInt, signed_eq_toInt]
  unfold aluSetLessThan
  split <;> rfl

theorem aluShiftLeft16_toNat (b : Word) : (aluShiftLeft16 b).toNat = b.toNat * 2 ^ 16 % 2 ^ 32 := by
  unfold aluShiftLeft16
  rw [BitVec.toNat_shiftLeft, Nat.shiftLeft_eq]

/-- The shift drops the high half and puts 16 zeros behind the low one. -/
theorem aluShiftLeft16_eq_append (b : Word) : aluShiftLeft16 b = b.extractLsb' 0 16 ++ 0#16 := by
  apply BitVec.eq_of_toNat_eq
  rw [aluShiftLeft16_toNat, BitVec.toNat_append, BitVec.extractLsb'_toNat, Nat.shiftLeft_eq]
  simp only [BitVec.toNat_ofNat, Nat.zero_mod, Nat.or_zero, Nat.shiftRight_zero]
  omega

@[simp] theorem aluEqual_iff (a b : Word) : aluEqual a b = true ↔ a = b := beq_iff_eq

/-- `equal` by the bits (R93). -/
theorem aluEqual_iff_bits (a b : Word) : aluEqual a b = true ↔ ∀ i < 32, a.getLsbD i = b.getLsbD i := by
  rw [aluEqual_iff]
  exact ⟨fun h _ _ => h ▸ rfl, BitVec.eq_of_getLsbD_eq⟩

/-- `equal` by the difference (R94). -/
theorem aluEqual_iff_sub_eq_zero (a b : Word) : aluEqual a b = true ↔ a - b = 0#32 := by
  rw [aluEqual_iff]
  exact sub_eq_zero.symm

/-- Settles O10: one law for each operation, `ShiftLeft16` and `equal` in both of their forms. -/
theorem aluOperations : Obligations.AluOperations := fun a b =>
  ⟨aluAdd_toNat a b, aluAnd_getLsbD a b, aluOr_getLsbD a b, aluSetLessThan_toNat a b, aluShiftLeft16_toNat b,
    aluShiftLeft16_eq_append b, aluEqual_iff_bits a b, aluEqual_iff_sub_eq_zero a b⟩

/-! ### Pc unit -/

/-- A displacement from the next address, counted from this one. -/
theorem sumMod_add_one (a : Word) (d : Int) : sumMod (a + 1#32) d = sumMod a (1 + d) := by
  unfold sumMod
  rw [BitVec.toNat_add, BitVec.toNat_ofNat]
  omega

theorem nextPc_taken (pc : Word) (imm : Imm) : nextPc pc imm true true = pc + 1#32 + sext32 imm := rfl

theorem nextPc_not_taken (pc : Word) (imm : Imm) {branch equal : Bool} (h : ¬(branch = true ∧ equal = true)) :
    nextPc pc imm branch equal = pc + 1#32 := by
  rw [nextPc, if_neg (by rwa [Bool.and_eq_true])]

theorem nextPc_toNat (pc : Word) (imm : Imm) (branch equal : Bool) :
    (nextPc pc imm branch equal).toNat =
      if branch = true ∧ equal = true then sumMod pc (1 + imm.toInt) else (pc.toNat + 1) % 2 ^ 32 := by
  split
  case isTrue h =>
    obtain ⟨rfl, rfl⟩ := h
    rw [nextPc_taken, toNat_add_eq_sumMod, sext32_toInt, sumMod_add_one]
  case isFalse h =>
    rw [nextPc_not_taken pc imm h]
    exact BitVec.toNat_add pc 1#32

/-- Displacement -1 leads from the address after the branch back to the branch. -/
theorem nextPc_self (pc : Word) : nextPc pc 0xFFFF#16 true true = pc := by
  have hback : sext32 0xFFFF#16 = -1#32 := by decide
  rw [nextPc_taken, hback]
  exact add_neg_cancel_right pc 1#32

/-- Displacement 0 leads to the address after the branch. -/
theorem nextPc_displacement_zero (pc : Word) : nextPc pc 0x0000#16 true true = nextPc pc 0x0000#16 true false := by
  have hstay : sext32 0x0000#16 = 0#32 := by decide
  rw [nextPc_taken, hstay, nextPc_not_taken (branch := true) (equal := false) pc _ (by decide)]
  exact add_zero _

end Sys2Proof.Machine
end

section
/-! PROOFS. The cycle (40_datapath.md R84, R99, R101, R102, R108): the datapath stages for a word what the decoded
instruction stages, checks the bound exactly for `lw` and `sw`, and so is the machine's step. -/

namespace Sys2Proof.Machine

/-! ### What the datapath stages and checks -/

/-- For every word the datapath and the decoded instruction stage the same writes and the same next pc. The ALU's free
values meet a multiplexer or a gate that drops them, row by row of the table. -/
theorem State.stagedBy_eq_stagedOf (s : State) (w : Word) : s.stagedBy w = stagedOf (decode w) s := by
  unfold State.stagedBy State.wdataOf State.aluOf
  rw [controlOf_eq_controlFor]
  cases hsel : select w with
  | none => rw [decode_unmatched (Option.isNone_iff_eq_none.mpr hsel)]; rfl
  | some sel =>
    cases sel with
    | add => rw [decode_of_select_add hsel]; rfl
    | and => rw [decode_of_select_and hsel]; rfl
    | slt => rw [decode_of_select_slt hsel]; rfl
    | beq => rw [decode_of_select_beq hsel]; rfl
    | addi => rw [decode_of_select_addi hsel]; rfl
    | ori => rw [decode_of_select_ori hsel]; rfl
    | lui => rw [decode_of_select_lui hsel]; rfl
    | lw => rw [decode_of_select_lw hsel]; rfl
    | sw => rw [decode_of_select_sw hsel]; rfl

/-- The accesses are the instructions of the rows of `lw` and `sw`. -/
theorem isAccess_iff_selection (i : Instr) :
    (∃ rs rt imm, IsAccess i rs rt imm) ↔ i.selection = some .lw ∨ i.selection = some .sw := by
  constructor
  · rintro ⟨rs, rt, imm, rfl | rfl⟩
    · exact .inl rfl
    · exact .inr rfl
  · intro h
    cases i with
    | lw rs rt imm => exact ⟨rs, rt, imm, .inl rfl⟩
    | sw rs rt imm => exact ⟨rs, rt, imm, .inr rfl⟩
    | _ => simp [Instr.selection] at h

theorem controlFor_enables_access_iff (sel : Option Selection) :
    ((controlFor sel).memRead || (controlFor sel).memWrite) = true ↔ sel = some .lw ∨ sel = some .sw := by
  cases sel with
  | none => decide
  | some sel => cases sel <;> decide

/-- The gate of the bound check is open exactly for an access (20_memory.md R44). -/
theorem controlOf_enables_access_iff (w : Word) :
    ((controlOf w).memRead || (controlOf w).memWrite) = true ↔ ∃ rs rt imm, IsAccess (decode w) rs rt imm := by
  rw [controlOf_eq_controlFor, controlFor_enables_access_iff, isAccess_iff_selection, selection_decode]

/-- What the bound check of R101 catches, in terms of the decoded instruction. -/
theorem State.badAccess_iff (s : State) (w : Word) :
    s.badAccess w = true ↔
      ∃ rs rt imm, IsAccess (decode w) rs rt imm ∧ s.params.dmemWords ≤ (s.address rs imm).toNat := by
  rw [State.badAccess, Bool.and_eq_true, controlOf_enables_access_iff, Bool.not_eq_true', ← Bool.not_eq_true,
    State.inRange_iff, not_lt]
  constructor
  · rintro ⟨⟨rs, rt, imm, hacc⟩, hbeyond⟩
    exact ⟨rs, rt, imm, hacc, State.aluOf_result_of_isAccess hacc ▸ hbeyond⟩
  · rintro ⟨rs, rt, imm, hacc, hbeyond⟩
    exact ⟨⟨rs, rt, imm, hacc⟩, (State.aluOf_result_of_isAccess hacc).symm ▸ hbeyond⟩

/-! ### What the instruction does, by the same bound -/

theorem exec_of_access_outside {i : Instr} {rs rt : RegIdx} {imm : Imm} {s : State} (h : IsAccess i rs rt imm)
    (hbeyond : s.params.dmemWords ≤ (s.address rs imm).toNat) :
    exec i s = .next (s.halt (.addressOutOfRange (s.address rs imm))) := by
  obtain rfl | rfl := h
  · exact exec_lw_outside hbeyond
  · exact exec_sw_outside hbeyond

/-- An instruction whose access, where it makes one, is in range commits what it stages. -/
theorem exec_of_no_access_outside {i : Instr} {s : State}
    (h : ∀ rs rt imm, IsAccess i rs rt imm → (s.address rs imm).toNat < s.params.dmemWords) :
    exec i s = .next (s.commit (stagedOf i s)) := by
  cases i with
  | lw rs rt imm => exact exec_lw_inRange (h rs rt imm (.inl rfl))
  | sw rs rt imm => exact exec_sw_inRange (h rs rt imm (.inr rfl))
  | beq => exact exec_beq ..
  | unsupported => exact exec_unsupported ..
  | add => exact exec_add ..
  | and => exact exec_and ..
  | slt => exact exec_slt ..
  | addi => exact exec_addi ..
  | ori => exact exec_ori ..
  | lui => exact exec_lui ..

/-! ### Step and cycle -/

/-- The decoded instruction and the datapath agree on every word, in every state. -/
theorem exec_decode_eq_datapath (s : State) (w : Word) : exec (decode w) s = .next (s.datapath w) := by
  unfold State.datapath
  by_cases hbad : s.badAccess w = true
  · obtain ⟨rs, rt, imm, hacc, hbeyond⟩ := (s.badAccess_iff w).mp hbad
    rw [if_pos hbad, exec_of_access_outside hacc hbeyond, State.aluOf_result_of_isAccess hacc]
  · rw [if_neg hbad, State.stagedBy_eq_stagedOf]
    refine exec_of_no_access_outside fun rs rt imm hacc => ?_
    by_contra hge
    exact hbad ((s.badAccess_iff w).mpr ⟨rs, rt, imm, hacc, not_lt.mp hge⟩)

/-- Settles O28: a halted cycle and a failed fetch are the same on both sides; else `exec_decode_eq_datapath`. -/
theorem stepIsTheDatapathCycle : Obligations.StepIsTheDatapathCycle := by
  intro s
  unfold step State.cycle
  cases s.halted with
  | some => rfl
  | none =>
    cases s.fetch with
    | error => rfl
    | ok w => exact exec_decode_eq_datapath s w

/-- Settles O29: by induction on the number of cycles, from any state. -/
theorem runIsTheIteratedCycle : Obligations.RunIsTheIteratedCycle := by
  intro n
  induction n with
  | zero => exact run_zero
  | succ n ih =>
    intro s
    rw [run_of_step (stepIsTheDatapathCycle s), Function.iterate_succ_apply]
    exact ih s.cycle

/-- Settles O30: the cycle is the next state, and an answer is one state. -/
theorem stepIsTotalAndDeterministic : Obligations.StepIsTotalAndDeterministic := fun s =>
  ⟨s.cycle, stepIsTheDatapathCycle s, fun _ h => Host.Outcome.next.inj (h.symm.trans (stepIsTheDatapathCycle s))⟩

/-- Settles O12: the pc unit on the numbers, and its value as the committed pc, where the next cycle fetches. -/
theorem nextPcIsSequentialOrTarget : Obligations.NextPcIsSequentialOrTarget := by
  constructor
  · exact fun pc imm branch equal => ⟨nextPc_toNat pc imm branch equal, nextPc_self pc, nextPc_displacement_zero pc⟩
  · intro s t w hexec hstep hrun
    constructor
    · rw [step_pc_of_executes hexec hstep hrun]
      exact congrArg Staged.nextPc (s.stagedBy_eq_stagedOf w).symm
    · intro w' hfetch
      exact step_of_executes ⟨hrun, (State.fetchAt_congr (step_params hstep) t.pc).trans hfetch⟩

/-- Under the disabled control word the ALU adds the two register values. -/
theorem State.aluOf_result_of_unmatched {w : Word} (h : UnmatchedByFields w) (s : State) :
    (s.aluOf w).result = s.readReg (fields w).rs + s.readReg (fields w).rt := by
  unfold State.aluOf
  rw [(unmatched_is_noop h).1]
  rfl

/-- Settles O23: an unmatched word has the disabled control word, and its commit moves only the pc. -/
theorem unsupportedEffect : Obligations.UnsupportedEffect := by
  refine ⟨fun w h => ?_, fun w s => ?_, fun w s hexec h => ?_⟩
  · exact ⟨decode_unmatched ((unmatched_iff_byFields w).mpr h), (unmatched_is_noop h).1,
      State.aluOf_result_of_unmatched h⟩
  · rw [exec_unsupported, State.commit_pcOnly]
    exact ⟨_, rfl, rfl, fun _ => rfl, fun _ => rfl, rfl, rfl⟩
  · rw [step_of_executes hexec, (unmatched_is_noop h).2]

end Sys2Proof.Machine
end

section
/-! PROOFS. The register-register instructions (41_rtype_alu.md R120 to R123): a row of the opcode map fixes the instruction
and its control word, and a cycle that stages one register write leaves everything else alone. -/

namespace Sys2Proof.Machine

/-! ### Rows of the opcode map -/

/-- A row means what its selection means, when its words make that selection. -/
theorem rowMeans_of_select {mask pattern : Word} {form : Fields → Instr} {sel : Selection}
    (hrow : ∀ w, w &&& mask = pattern → select w = some sel)
    (hform : ∀ w, select w = some sel → decode w = form (fields w)) :
    RowMeans mask pattern form (controlFor (some sel)) := by
  intro w hw
  have hsel : select w = some sel := hrow w hw
  exact ⟨hform w hsel, by rw [controlOf_eq_controlFor, hsel]⟩

/-- The words of a row with opcode 0x00 and a function code make the selection of that pair. -/
theorem select_of_funct_row {w pattern : Word} {funct : Code} (hp : pattern = 0x00#6 ++ 0#20 ++ funct)
    (hw : w &&& 0xFC00003F#32 = pattern) : select w = selectByFields 0x00#6 funct := by
  obtain ⟨hopcode, hfunct⟩ := (mask_funct_iff w 0x00#6 funct).mp (hw.trans hp)
  rw [select_eq_byFields, hopcode, hfunct]

/-! ### A cycle that writes one register -/

/-- The destination reads the committed value, and as zero where it is register 0 (R23). -/
theorem State.commit_readReg_dest (s : State) (d : RegIdx) (v p : Word) :
    (s.commit { reg := some (d, v), nextPc := p }).readReg d = if d = 0#5 then 0#32 else v := by
  rw [State.commit_readReg]
  by_cases hd : d = 0#5
  · simp [hd]
  · simp [hd]

/-- An instruction that stages one register write and the sequential pc: the destination's value, and the frame. -/
theorem exec_writes_one_register {i : Instr} {s : State} {d : RegIdx} {v : Word}
    (h : exec i s = .next (s.commit { reg := some (d, v), nextPc := s.pc + 1#32 })) :
    ∃ t, exec i s = .next t ∧ t.readReg d = (if d = 0#5 then 0#32 else v) ∧
      t.pc = s.pc + 1#32 ∧ RegsKeptBut d s t ∧ MemKept s t ∧ MarkAndParamsKept s t := by
  refine ⟨_, h, s.commit_readReg_dest d v _, rfl, fun r hr => ?_, fun a => ?_, ?_, ?_⟩
  · rw [State.commit_readReg]
    exact if_neg fun hdest => hr hdest.1
  · rw [State.commit_read]
  · exact State.commit_halted ..
  · exact State.commit_params ..

/-! ### The three instructions -/

/-- Settles O14: the row selects `add`, whose one register write is the sum of the old sources (`aluAdd_toNat`). -/
theorem addEffect : Obligations.AddEffect := by
  refine ⟨rowMeans_of_select (fun _ => select_of_funct_row (funct := 0x20#6) rfl) fun _ => decode_of_select_add, ?_⟩
  intro rs rt rd shamt s
  obtain ⟨t, hexec, hrd, hframe⟩ := exec_writes_one_register (exec_add rs rt rd shamt s)
  refine ⟨t, hexec, ?_, hframe⟩
  rw [hrd]
  split
  · rfl
  · exact aluAdd_toNat ..

/-- Settles O15: the row selects `and`, whose one register write is bitwise (`aluAnd_getLsbD`). -/
theorem andEffect : Obligations.AndEffect := by
  refine ⟨rowMeans_of_select (fun _ => select_of_funct_row (funct := 0x24#6) rfl) fun _ => decode_of_select_and, ?_⟩
  intro rs rt rd shamt s
  obtain ⟨t, hexec, hrd, hframe⟩ := exec_writes_one_register (exec_and rs rt rd shamt s)
  refine ⟨t, hexec, fun k => ?_, hframe⟩
  rw [hrd]
  split
  · exact BitVec.getLsbD_zero
  · exact aluAnd_getLsbD ..

/-- Settles O16: the row selects `slt`, whose one register write is the signed comparison (`aluSetLessThan_toNat`). -/
theorem sltEffect : Obligations.SltEffect := by
  refine ⟨rowMeans_of_select (fun _ => select_of_funct_row (funct := 0x2A#6) rfl) fun _ => decode_of_select_slt, ?_⟩
  intro rs rt rd shamt s
  obtain ⟨t, hexec, hrd, hframe⟩ := exec_writes_one_register (exec_slt rs rt rd shamt s)
  refine ⟨t, hexec, ?_, hframe⟩
  rw [hrd, ite_and, ite_not]
  split
  · rfl
  · exact aluSetLessThan_toNat ..

/-! ### The family -/

/-- The three functions of opcode 0x00 have one control word, up to the ALU operation. -/
theorem controlOf_registerRegister {w : Word} (hopcode : (fields w).opcode = 0x00#6)
    (hfunct : (fields w).funct ∈ ([0x20#6, 0x24#6, 0x2A#6] : List Code)) :
    controlOf w = ⟨true, true, .register, (controlOf w).aluOp, false, false, false⟩ := by
  unfold controlOf
  rw [hopcode]
  simp only [List.mem_cons, List.not_mem_nil, or_false] at hfunct
  obtain hfn | hfn | hfn := hfunct
  · rw [hfn]; rfl
  · rw [hfn]; rfl
  · rw [hfn]; rfl

/-- Under that control word the datapath's bound check is off and its one write is the ALU's result to `rd`. -/
theorem exec_of_controlOf_registerRegister {w : Word} {op : AluOp}
    (h : controlOf w = ⟨true, true, .register, op, false, false, false⟩) (s : State) :
    exec (decode w) s = .next (s.commit
      { reg := some ((fields w).rd, (alu op (s.readReg (fields w).rs) (s.readReg (fields w).rt)).result)
        nextPc := s.pc + 1#32 }) := by
  rw [exec_decode_eq_datapath]
  unfold State.datapath State.badAccess State.stagedBy State.wdataOf State.aluOf
  rw [h]
  rfl

/-- Settles O24: the family's control word makes the datapath write the ALU's result on the old sources to `rd`. -/
theorem registerRegisterFamily : Obligations.RegisterRegisterFamily := by
  intro w hopcode hfunct
  have hcw := controlOf_registerRegister hopcode hfunct
  exact ⟨hcw, fun s => exec_writes_one_register (exec_of_controlOf_registerRegister hcw s)⟩

end Sys2Proof.Machine
end

section
/-! PROOFS. The register-immediate instructions (42_immediate_alu.md R130 to R133): the rows with an opcode alone, the ALU on
an extended immediate, and the family's one control word, under which no second register value reaches the ALU. -/

namespace Sys2Proof.Machine

/-! ### Rows with an opcode alone -/

/-- The words of a row with an opcode alone make the selection of that opcode, whatever stands in `funct`. -/
theorem select_of_opcode_row {w pattern : Word} {opcode : Code} (hp : pattern = opcode ++ 0#26)
    (hw : w &&& 0xFC000000#32 = pattern) : select w = selectByFields opcode (fields w).funct := by
  rw [select_eq_byFields, (mask_opcode_iff w opcode).mp (hw.trans hp)]

/-! ### The ALU on an extended immediate -/

theorem zext32_eq_append (imm : Imm) : zext32 imm = 0#16 ++ imm :=
  BitVec.setWidth_eq_append (by decide)

/-- A zero-extended immediate joins the low half and lets the high half pass. -/
theorem aluOr_zext32_getLsbD (a : Word) (imm : Imm) (k : Nat) :
    (aluOr a (zext32 imm)).getLsbD k = if k < 16 then (a.getLsbD k || imm.getLsbD k) else a.getLsbD k := by
  rw [aluOr_getLsbD, zext32_eq_append, BitVec.getLsbD_append]
  split
  · rfl
  · rw [BitVec.getLsbD_zero, Bool.or_false]

theorem aluShiftLeft16_zext32 (imm : Imm) : aluShiftLeft16 (zext32 imm) = imm ++ 0#16 := by
  rw [aluShiftLeft16_eq_append, zext32_eq_append, BitVec.extractLsb'_append_eq_right]

/-- The low half that `lui` leaves at zero takes the immediate of the `ori` (R131). -/
theorem aluOr_append_zero_zext32 (hi lo : Imm) : aluOr (hi ++ 0#16) (zext32 lo) = hi ++ lo := by
  rw [aluOr, zext32_eq_append, BitVec.or_append, BitVec.or_zero, BitVec.zero_or]

/-! ### The three instructions -/

/-- A register other than 0 reads, after an instruction that stages a write to it, as the staged value. -/
theorem readReg_dest_of_exec {i : Instr} {s t : State} {d : RegIdx} {v p : Word} (hd : d ≠ 0#5)
    (h : exec i s = .next (s.commit { reg := some (d, v), nextPc := p })) (ht : exec i s = .next t) :
    t.readReg d = v := by
  obtain rfl := Host.Outcome.next.inj (h.symm.trans ht)
  rw [State.commit_readReg_dest, if_neg hd]

/-- Settles O17: the row selects `addi`, whose one register write is the sum with the signed immediate: the sum that `lw` and
`sw` take as their address (`State.address_toNat`). -/
theorem addiEffect : Obligations.AddiEffect := by
  refine ⟨rowMeans_of_select (fun _ => select_of_opcode_row (opcode := 0x08#6) rfl) fun _ => decode_of_select_addi, ?_⟩
  intro rs rt imm s
  obtain ⟨t, hexec, hrt, hframe⟩ := exec_writes_one_register (exec_addi rs rt imm s)
  refine ⟨t, hexec, ?_, hframe⟩
  rw [hrt]
  split
  · rfl
  · exact s.address_toNat rs imm

/-- Settles O18: the row selects `ori`, whose one register write joins the low halves (`aluOr_zext32_getLsbD`); after
`lui` that low half is zero. -/
theorem oriEffect : Obligations.OriEffect := by
  refine ⟨rowMeans_of_select (fun _ => select_of_opcode_row (opcode := 0x0D#6) rfl) fun _ => decode_of_select_ori, ?_, ?_⟩
  · intro rs rt imm s
    obtain ⟨t, hexec, hrt, hframe⟩ := exec_writes_one_register (exec_ori rs rt imm s)
    refine ⟨t, hexec, fun k => ?_, hframe⟩
    rw [hrt]
    split
    · exact BitVec.getLsbD_zero
    · exact aluOr_zext32_getLsbD ..
  · intro rs rt hi lo s t u hrt hlui hori
    rw [readReg_dest_of_exec hrt (exec_ori rt rt lo t) hori, readReg_dest_of_exec hrt (exec_lui rs rt hi s) hlui,
      aluShiftLeft16_zext32, aluOr_append_zero_zext32]

/-- Settles O19: the row selects `lui`, whose one register write is the shifted immediate (`aluShiftLeft16_zext32`). -/
theorem luiEffect : Obligations.LuiEffect := by
  refine ⟨rowMeans_of_select (fun _ => select_of_opcode_row (opcode := 0x0F#6) rfl) fun _ => decode_of_select_lui, ?_⟩
  intro rs rt imm s
  obtain ⟨t, hexec, hrt, hframe⟩ := exec_writes_one_register (exec_lui rs rt imm s)
  exact ⟨t, hexec, by rw [hrt, aluShiftLeft16_zext32], hframe⟩

/-! ### The family -/

/-- The three opcodes have one control word, up to the ALU operation and which extension operand B is. -/
theorem controlOf_registerImmediate {w : Word} (h : (fields w).opcode ∈ ([0x08#6, 0x0D#6, 0x0F#6] : List Code)) :
    controlOf w = ⟨true, false, (controlOf w).aluSrc, (controlOf w).aluOp, false, false, false⟩ ∧
      (controlOf w).aluSrc ≠ .register := by
  unfold controlOf
  simp only [List.mem_cons, List.not_mem_nil, or_false] at h
  obtain hop | hop | hop := h
  · rw [hop]; exact ⟨rfl, nofun⟩
  · rw [hop]; exact ⟨rfl, nofun⟩
  · rw [hop]; exact ⟨rfl, nofun⟩

/-- Where operand B is an extended immediate, the second register value does not reach the ALU (R87). -/
theorem operandB_of_ne_register {src : AluSrc} (h : src ≠ .register) (b b' : Word) (imm : Imm) :
    operandB src b imm = operandB src b' imm := by
  cases src with
  | register => exact absurd rfl h
  | signExtendedImm => rfl
  | zeroExtendedImm => rfl

/-- Under that control word the datapath's bound check is off and its one write is the ALU's result to `rt`. -/
theorem exec_of_controlOf_registerImmediate {w : Word} {src : AluSrc} {op : AluOp}
    (h : controlOf w = ⟨true, false, src, op, false, false, false⟩) (s : State) :
    exec (decode w) s = .next (s.commit
      { reg := some ((fields w).rt, (alu op (s.readReg (fields w).rs)
          (operandB src (s.readReg (fields w).rt) (fields w).imm)).result)
        nextPc := s.pc + 1#32 }) := by
  rw [exec_decode_eq_datapath]
  unfold State.datapath State.badAccess State.stagedBy State.wdataOf State.aluOf
  rw [h]
  rfl

/-- Settles O25: the family's control word makes the datapath write the ALU's result to `rt`, and its operand B is the same
for every second register value. -/
theorem registerImmediateFamily : Obligations.RegisterImmediateFamily := by
  intro w hopcode s
  obtain ⟨hcw, hsrc⟩ := controlOf_registerImmediate hopcode
  obtain ⟨t, hexec, hrt, hframe⟩ := exec_writes_one_register (exec_of_controlOf_registerImmediate hcw s)
  exact ⟨t, hexec, fun b => by rw [hrt, operandB_of_ne_register hsrc _ b], hframe⟩

end Sys2Proof.Machine
end

section
/-! PROOFS. Load and store of one word (43_load_store.md R140, R142): the row of `lw`, and what an instruction can take from
data memory. Memory enters a cycle only through the register write of a `lw` and leaves it only through a staged store. -/

namespace Sys2Proof.Machine

/-! ### The load -/

/-- Settles O20: the row selects `lw`, whose one register write in range is the cell at the address; beyond the bound it
halts, whatever its destination. -/
theorem lwEffect : Obligations.LwEffect := by
  refine ⟨rowMeans_of_select (fun _ => select_of_opcode_row (opcode := 0x23#6) rfl) fun _ => decode_of_select_lw, ?_⟩
  intro rs rt imm s
  exact ⟨s.address_toNat rs imm, fun hlt => exec_writes_one_register (exec_lw_inRange hlt), exec_lw_outside⟩

/-! ### Another data memory -/

/-- A commit that stages no store neither reads nor writes data memory. -/
theorem State.commit_atDmem {s : State} {st : Staged} (h : st.mem = none) (m : Memory) :
    State.commit { s with dmem := m } st = { s.commit st with dmem := m } := by
  obtain ⟨reg, mem, n⟩ := st
  obtain rfl : mem = none := h
  cases reg with
  | none => rfl
  | some c =>
    simp only [State.commit, State.applyReg, State.applyMem, State.writeReg]
    split <;> rfl

/-- Another data memory changes nothing that is staged but the register write. -/
theorem stagedOf_atDmem (i : Instr) (s : State) (m : Memory) :
    stagedOf i { s with dmem := m } = { stagedOf i s with reg := regWriteOf i { s with dmem := m } } := by
  cases i <;> rfl

/-- An instruction that stages no store, and the same register write in another data memory, does the same there: the
address, and so the bound check, does not depend on memory. -/
theorem exec_atDmem {i : Instr} {s t : State} {m : Memory} (hstore : storeOf i s = none)
    (hreg : regWriteOf i { s with dmem := m } = regWriteOf i s) (h : exec i s = .next t) :
    exec i { s with dmem := m } = .next { t with dmem := m } := by
  by_cases hout : ∃ rs rt imm, IsAccess i rs rt imm ∧ s.params.dmemWords ≤ (s.address rs imm).toNat
  · obtain ⟨rs, rt, imm, hacc, hbeyond⟩ := hout
    obtain rfl := Host.Outcome.next.inj (h.symm.trans (exec_of_access_outside hacc hbeyond))
    exact exec_of_access_outside (s := { s with dmem := m }) hacc hbeyond
  · have hin : ∀ rs rt imm, IsAccess i rs rt imm → (s.address rs imm).toNat < s.params.dmemWords :=
      fun rs rt imm hacc => not_le.mp fun hbeyond => hout ⟨rs, rt, imm, hacc, hbeyond⟩
    obtain rfl := Host.Outcome.next.inj (h.symm.trans (exec_of_no_access_outside hin))
    have hstaged : stagedOf i { s with dmem := m } = stagedOf i s := by rw [stagedOf_atDmem, hreg]; rfl
    rw [exec_of_no_access_outside (s := { s with dmem := m }) hin, hstaged, State.commit_atDmem hstore]

/-! ### Instructions that are no access -/

theorem storeOf_of_not_access {i : Instr} (h : ∀ rs rt imm, ¬IsAccess i rs rt imm) (s : State) : storeOf i s = none := by
  cases hstore : storeOf i s with
  | none => rfl
  | some c =>
    obtain ⟨rs, rt, imm, hsw, -⟩ := eq_sw_of_storeOf_eq_some hstore
    exact absurd (.inr hsw) (h rs rt imm)

theorem regWriteOf_atDmem_of_not_access {i : Instr} (h : ∀ rs rt imm, ¬IsAccess i rs rt imm) (s : State) (m : Memory) :
    regWriteOf i { s with dmem := m } = regWriteOf i s := by
  cases i with
  | lw rs rt imm => exact absurd (.inl rfl) (h rs rt imm)
  | _ => rfl

/-! ### The store -/

/-- A `sw`, completed or halted, leaves every cell but the one it names. -/
theorem exec_sw_memKeptBut {rs rt : RegIdx} {imm : Imm} {s t : State} (h : exec (.sw rs rt imm) s = .next t) :
    MemKeptBut (s.address rs imm).toNat s t := by
  intro a ha
  obtain ⟨-, rfl⟩ | ⟨f, rfl⟩ := exec_commits_or_halts h
  · rw [State.commit_read]
    exact if_neg ha
  · rfl

/-- Settles O34: an instruction that is no access commits, stages no store and takes nothing from memory; a `lw` takes the
one cell (`exec_atDmem` for both); `addi` stages the address of `lw` and `sw` itself. -/
theorem onlyLoadStoreReachDataMemory : Obligations.OnlyLoadStoreReachDataMemory := by
  refine ⟨fun i s m hacc => ?_, fun rs rt imm s t hrt h => ?_, fun rs rt imm s t m hcell h => ?_,
    fun _ _ _ _ _ => exec_sw_memKeptBut⟩
  · have hstore : storeOf i s = none := storeOf_of_not_access hacc s
    have hexec := exec_of_no_access_outside (s := s) fun rs rt imm h => absurd h (hacc rs rt imm)
    refine ⟨_, hexec, ?_, State.commit_halted .., ?_⟩
    · rw [State.commit_dmem, stagedOf, hstore]
    · exact exec_atDmem hstore (regWriteOf_atDmem_of_not_access hacc s m) hexec
  · exact readReg_dest_of_exec hrt (exec_addi rs rt imm s) h
  · have hreg : regWriteOf (.lw rs rt imm) { s with dmem := m } = regWriteOf (.lw rs rt imm) s :=
      congrArg (fun v => some (rt, v)) hcell
    exact exec_atDmem rfl hreg h

end Sys2Proof.Machine
end

section
/-! PROOFS. The one control transfer (44_branch.md R150): the row of `beq`, the pc on the numbers, and a commit that moves
the pc alone. -/

namespace Sys2Proof.Machine

/-- The pc unit steered by the comparison of two words, on the numbers. -/
theorem nextPc_aluEqual_toNat (pc : Word) (imm : Imm) (a b : Word) :
    (nextPc pc imm true (aluEqual a b)).toNat =
      if a = b then sumMod pc (1 + imm.toInt) else (pc.toNat + 1) % 2 ^ 32 := by
  rw [nextPc_toNat]
  simp only [aluEqual_iff, true_and]

/-- Settles O22: the row selects `beq`, whose commit stages no write and moves the pc to `nextPc_aluEqual_toNat`. -/
theorem beqEffect : Obligations.BeqEffect := by
  refine ⟨rowMeans_of_select (fun _ => select_of_opcode_row (opcode := 0x04#6) rfl) fun _ => decode_of_select_beq, ?_⟩
  intro rs rt imm s
  rw [exec_beq, State.commit_pcOnly]
  exact ⟨_, rfl, nextPc_aluEqual_toNat .., fun _ => rfl, fun _ => rfl, rfl, rfl⟩

end Sys2Proof.Machine
end

section
/-! PROOFS. The fatal conditions (60_exceptions.md R174, R175): which conditions a step of a running machine can raise, and
the exact one of the data port. -/

namespace Sys2Proof.Machine

/-- The only condition of the instruction port is the spec's own one, for the pc (R177). -/
theorem State.fetch_error {s : State} {f : Fault} (h : s.fetch = .error f) : f = .fetchOutOfImage s.pc := by
  unfold State.fetch State.fetchAt at h
  split at h
  case h_1 => cases h
  case h_2 => exact (Except.error.inj h).symm

/-- All that a running machine's step can raise: the condition of its fetch, or that of a data access beyond the bound.
Either way the step is the halt. -/
theorem step_raises {s t : State} {f : Fault} (hrun : s.Running) (h : step s = .next t) (hf : t.halted = some f) :
    t = s.halt f ∧
      (s.fetch = .error f ∨
        ∃ w rs rt imm, s.fetch = .ok w ∧ IsAccess (decode w) rs rt imm ∧
          s.params.dmemWords ≤ (s.address rs imm).toNat ∧ f = .addressOutOfRange (s.address rs imm)) := by
  obtain ⟨⟨g, hg⟩, -⟩ | ⟨-, g, hfetch, hstep⟩ | ⟨-, w, hfetch, hstep⟩ := step_cases s
  · cases hrun.symm.trans hg
  · obtain rfl := Host.Outcome.next.inj (h.symm.trans hstep)
    obtain rfl := Option.some.inj hf
    exact ⟨rfl, .inl hfetch⟩
  · obtain ⟨st, hexec, -⟩ | ⟨rs, rt, imm, hacc, hbeyond, hexec⟩ := exec_cases (decode w) s
    · obtain rfl := Host.Outcome.next.inj (h.symm.trans (hstep.trans hexec))
      cases hrun.symm.trans ((State.commit_halted s st).symm.trans hf)
    · obtain rfl := Host.Outcome.next.inj (h.symm.trans (hstep.trans hexec))
      obtain rfl := Option.some.inj hf
      exact ⟨rfl, .inr ⟨w, rs, rt, imm, hfetch, hacc, hbeyond, rfl⟩⟩

theorem step_raises_addressOutOfRange_iff {s t : State} (a : Word) (hrun : s.Running) (h : step s = .next t) :
    t.halted = some (.addressOutOfRange a) ↔
      ∃ w rs rt imm, s.fetch = .ok w ∧ IsAccess (decode w) rs rt imm ∧ a = s.address rs imm ∧
        s.params.dmemWords ≤ (s.address rs imm).toNat := by
  constructor
  · intro ha
    obtain ⟨-, hfetch | ⟨w, rs, rt, imm, hfetch, hacc, hbeyond, hfault⟩⟩ := step_raises hrun h ha
    · cases State.fetch_error hfetch
    · exact ⟨w, rs, rt, imm, hfetch, hacc, Fault.addressOutOfRange.inj hfault, hbeyond⟩
  · rintro ⟨w, rs, rt, imm, hfetch, hacc, rfl, hbeyond⟩
    rw [step_of_executes ⟨hrun, hfetch⟩, exec_of_access_outside hacc hbeyond] at h
    obtain rfl := Host.Outcome.next.inj h
    rfl

/-- Settles O41: the exact condition is `step_raises_addressOutOfRange_iff`, with the address read as a sum of integers; no
word is an address of 2^32 or more. -/
theorem addressOutOfRangeExactly : Obligations.AddressOutOfRangeExactly := by
  refine ⟨fun s t a hrun h => ?_, fun s t a hrun hwords h ha => ?_⟩
  · simpa only [State.address_toNat] using step_raises_addressOutOfRange_iff a hrun h
  · obtain ⟨-, rs, -, imm, -, -, -, hbeyond⟩ := (step_raises_addressOutOfRange_iff a hrun h).mp ha
    rw [hwords] at hbeyond
    exact absurd (s.address rs imm).isLt (Nat.not_lt.mpr hbeyond)

end Sys2Proof.Machine
end

section
/-! PROOFS. The machine at cycle 0 (70_reset_and_hazards.md R200, R201, R204): what loading puts in each part of the
state, and the word that the first cycle executes. -/

namespace Sys2Proof.Machine

/-! ### What loading gives -/

/-- The machine that `State.boot` gives for legal parameters and seeds: reset, with the seeds and the image in place. -/
def State.loaded (p : Params) (sd : Seeds) : State :=
  { State.reset with regs := sd.regs.set 0 0#32, dmem := sd.dmem, params := p }

/-- A machine is loaded exactly from legal parameters and seeds. -/
theorem State.boot_eq_some_iff {p : Params} {sd : Seeds} {s : State} :
    State.boot p sd = some s ↔ (Params.valid p = true ∧ Seeds.valid sd p = true) ∧ State.loaded p sd = s := by
  unfold State.boot
  rw [Option.ite_none_right_eq_some, Bool.and_eq_true, Option.some_inj]
  exact Iff.rfl

@[simp] theorem State.loaded_pc (p : Params) (sd : Seeds) : (State.loaded p sd).pc = 0#32 := rfl
@[simp] theorem State.loaded_params (p : Params) (sd : Seeds) : (State.loaded p sd).params = p := rfl

theorem State.loaded_running (p : Params) (sd : Seeds) : (State.loaded p sd).Running := rfl

theorem Params.valid_iff (p : Params) : Params.valid p = true ↔ 1 ≤ p.dmemWords ∧ p.dmemWords ≤ 2 ^ 32 := by
  simp [Params.valid]

/-- The absence of seeds is legal for every `DMEM_WORDS` (R10). -/
theorem Seeds.none_valid (p : Params) : Seeds.valid Seeds.none p = true := rfl

/-! ### Reset -/

theorem State.reset_readReg (i : RegIdx) : State.reset.readReg i = 0#32 := by
  unfold State.readReg
  split
  · rfl
  · exact Vector.getElem_replicate i.isLt

/-- Without seeds, loading replaces nothing of the reset state but the parameters. -/
theorem State.loaded_none (p : Params) : State.loaded p Seeds.none = { State.reset with params := p } := by
  have hregs : (Vector.replicate 32 0#32).set 0 0#32 = Vector.replicate 32 0#32 := by decide
  unfold State.loaded Seeds.none
  rw [hregs]
  rfl

/-- Settles O49: both kinds of machine are the reset state up to the parameters, on which no value of R200 depends. -/
theorem resetLeavesZero : Obligations.ResetLeavesZero := by
  refine ⟨fun s hs => ?_, fun p hleast hmost => ?_⟩
  · have hreset : ∃ p, s = { State.reset with params := p } := by
      obtain rfl | ⟨p, hboot⟩ := hs
      · exact ⟨Params.reference, rfl⟩
      · obtain ⟨-, rfl⟩ := State.boot_eq_some_iff.mp hboot
        exact ⟨p, State.loaded_none p⟩
    obtain ⟨p, rfl⟩ := hreset
    exact ⟨rfl, State.reset_readReg, Memory.read_nil, rfl⟩
  · have hlegal : Params.valid p = true := (Params.valid_iff p).mpr ⟨hleast, hmost⟩
    have hboot := State.boot_eq_some_iff.mpr ⟨⟨hlegal, Seeds.none_valid p⟩, rfl⟩
    exact ⟨State.loaded p Seeds.none, hboot, State.loaded_params ..⟩

/-! ### The first cycle -/

/-- The entry point is word 0 of the image, whatever the seeds are (R201). -/
theorem State.loaded_executes_word_zero {p : Params} {w : Word} (sd : Seeds) (h : p.image[0]? = some w) :
    Executes (State.loaded p sd) w :=
  ⟨State.loaded_running p sd, (State.fetchAt_ok_iff _ _ _).mpr (by simpa using h)⟩

/-- Settles O50: a loaded machine runs and fetches at pc 0, so its first step executes word 0. -/
theorem firstCycleExecutesWordZero : Obligations.FirstCycleExecutesWordZero := by
  intro p sd s w hboot hword
  obtain ⟨-, rfl⟩ := State.boot_eq_some_iff.mp hboot
  exact step_of_executes (State.loaded_executes_word_zero sd hword)

end Sys2Proof.Machine
end

section
/-! PROOFS. Encoding and decoding as inverses (30_encoding.md sections 1 to 4), and what selection looks at: the rows of the
opcode map are disjoint, and a field outside a row's mask changes neither the row nor, where the instruction drops it, what
the word does. -/

namespace Sys2Proof

/-! ### A word from its fields -/

/-- The fields that both views of R62 have in front are the upper half of the word. -/
theorem opcode_rs_rt_append (w : Word) :
    (fields w).opcode ++ (fields w).rs ++ (fields w).rt = w.extractLsb' 16 16 := by
  have hrs : w.extractLsb' 26 6 ++ w.extractLsb' 21 5 = w.extractLsb' 21 11 :=
    BitVec.extractLsb'_append_extractLsb'_eq_extractLsb' rfl
  have hrt : w.extractLsb' 21 11 ++ w.extractLsb' 16 5 = w.extractLsb' 16 16 :=
    BitVec.extractLsb'_append_extractLsb'_eq_extractLsb' rfl
  unfold fields
  rw [hrs, hrt]

/-- The immediate view: the upper half and `imm` fill the word. -/
theorem encodeI_fields {w : Word} {opcode : Code} (h : (fields w).opcode = opcode) :
    encodeI opcode (fields w).rs (fields w).rt (fields w).imm = w := by
  have himm : w.extractLsb' 16 16 ++ (fields w).imm = w.extractLsb' 0 32 :=
    BitVec.extractLsb'_append_extractLsb'_eq_extractLsb' rfl
  rw [encodeI, ← h, opcode_rs_rt_append, himm, extract_all]

/-- The register view: the upper half, `rd`, `shamt` and `funct` fill the word. -/
theorem encodeR_fields {w : Word} {funct : Code} (h : (fields w).opcode = 0x00#6 ∧ (fields w).funct = funct) :
    encodeR (fields w).rs (fields w).rt (fields w).rd (fields w).shamt funct = w := by
  obtain ⟨hopcode, hfn⟩ := h
  have hrd : w.extractLsb' 16 16 ++ (fields w).rd = w.extractLsb' 11 21 :=
    BitVec.extractLsb'_append_extractLsb'_eq_extractLsb' rfl
  have hshamt : w.extractLsb' 11 21 ++ (fields w).shamt = w.extractLsb' 6 26 :=
    BitVec.extractLsb'_append_extractLsb'_eq_extractLsb' rfl
  have hfunct : w.extractLsb' 6 26 ++ (fields w).funct = w.extractLsb' 0 32 :=
    BitVec.extractLsb'_append_extractLsb'_eq_extractLsb' rfl
  rw [encodeR, ← hopcode, ← hfn, opcode_rs_rt_append, hrd, hshamt, hfunct, extract_all]

/-- The fields that stand under a row's mask have the row's codes (R64). -/
def Selection.Fits : Selection → Code → Code → Prop
  | .add,  opcode, funct => opcode = 0x00#6 ∧ funct = 0x20#6
  | .and,  opcode, funct => opcode = 0x00#6 ∧ funct = 0x24#6
  | .slt,  opcode, funct => opcode = 0x00#6 ∧ funct = 0x2A#6
  | .beq,  opcode, _ => opcode = 0x04#6
  | .addi, opcode, _ => opcode = 0x08#6
  | .ori,  opcode, _ => opcode = 0x0D#6
  | .lui,  opcode, _ => opcode = 0x0F#6
  | .lw,   opcode, _ => opcode = 0x23#6
  | .sw,   opcode, _ => opcode = 0x2B#6

/-- The tests that the selection passes on the way to a row are the row's codes. -/
theorem fits_of_selectByFields {opcode funct : Code} {sel : Selection} (h : selectByFields opcode funct = some sel) :
    sel.Fits opcode funct := by
  unfold selectByFields at h
  split_ifs at h <;> cases h
  all_goals simp_all only [Selection.Fits, and_self]

theorem fits_of_select {w : Word} {sel : Selection} (h : select w = some sel) :
    sel.Fits (fields w).opcode (fields w).funct :=
  fits_of_selectByFields (select_eq_byFields w ▸ h)

/-- An instruction of a row takes every field of its word but the codes, which the row fixes. -/
theorem encode_decode (w : Word) : encode (decode w) = w := by
  cases hsel : select w with
  | none => rw [decode_unmatched (Option.isNone_iff_eq_none.mpr hsel), encode]
  | some sel =>
    have hfits := fits_of_select hsel
    cases sel with
    | add => rw [decode_of_select_add hsel]; exact encodeR_fields hfits
    | and => rw [decode_of_select_and hsel]; exact encodeR_fields hfits
    | slt => rw [decode_of_select_slt hsel]; exact encodeR_fields hfits
    | beq => rw [decode_of_select_beq hsel]; exact encodeI_fields hfits
    | addi => rw [decode_of_select_addi hsel]; exact encodeI_fields hfits
    | ori => rw [decode_of_select_ori hsel]; exact encodeI_fields hfits
    | lui => rw [decode_of_select_lui hsel]; exact encodeI_fields hfits
    | lw => rw [decode_of_select_lw hsel]; exact encodeI_fields hfits
    | sw => rw [decode_of_select_sw hsel]; exact encodeI_fields hfits

/-- `unsupported` is only decoded from a word without a row, and holds that word. -/
theorem decode_wf (w : Word) : (decode w).wf = true := by
  cases hi : decode w with
  | unsupported v =>
    obtain rfl : v = w := by rw [← encode_decode w, hi, encode]
    rw [Instr.wf, unmatched, ← Machine.selection_decode, hi, Instr.selection, Option.isNone_none]
  | _ => rfl

/-- The encoder's word selects the instruction's row, and the field decoder gives its operands back. -/
theorem decode_encode {i : Instr} (h : i.wf = true) : decode (encode i) = i := by
  cases i with
  | add => rw [decode_of_select_add (Laws.EncodedSelection.add _ _ _ _ h), encode, fields_encodeR]
  | and => rw [decode_of_select_and (Laws.EncodedSelection.and _ _ _ _ h), encode, fields_encodeR]
  | slt => rw [decode_of_select_slt (Laws.EncodedSelection.slt _ _ _ _ h), encode, fields_encodeR]
  | beq => rw [decode_of_select_beq (Laws.EncodedSelection.beq _ _ _ h), encode, fields_encodeI]
  | addi => rw [decode_of_select_addi (Laws.EncodedSelection.addi _ _ _ h), encode, fields_encodeI]
  | ori => rw [decode_of_select_ori (Laws.EncodedSelection.ori _ _ _ h), encode, fields_encodeI]
  | lui => rw [decode_of_select_lui (Laws.EncodedSelection.lui _ _ _ h), encode, fields_encodeI]
  | lw => rw [decode_of_select_lw (Laws.EncodedSelection.lw _ _ _ h), encode, fields_encodeI]
  | sw => rw [decode_of_select_sw (Laws.EncodedSelection.sw _ _ _ h), encode, fields_encodeI]
  | unsupported w => rw [encode, decode_unmatched h]

/-- Settles O2: row by row, `decode_encode`. -/
theorem decodeOfEncodeIsTheInstruction : Obligations.DecodeOfEncodeIsTheInstruction := fun _ => decode_encode

/-- Settles O3: the decoder gives only well-formed instructions and drops no bit. -/
theorem encodeOfDecodeIsTheWord : Obligations.EncodeOfDecodeIsTheWord := fun w => ⟨decode_wf w, encode_decode w⟩

/-- Settles O1: the decoder evaluated on each word. -/
theorem writtenOutWordsDecode : Obligations.WrittenOutWordsDecode := by
  unfold Obligations.WrittenOutWordsDecode
  decide

/-! ### The rows of the map -/

/-- Two rows of the map that agree where both their masks look are one row: all 81 pairs compared. -/
theorem row_eq_of_patterns_agree : ∀ r ∈ opcodeTable, ∀ r' ∈ opcodeTable,
    r.pattern &&& r'.mask = r'.pattern &&& r.mask → r = r' := by decide

/-- A word of two rows makes their patterns agree where both masks look. -/
theorem patterns_agree_of_holds {w : Word} {r r' : TableRow} (h : r.holds w = true) (h' : r'.holds w = true) :
    r.pattern &&& r'.mask = r'.pattern &&& r.mask := by
  have hr : w &&& r.mask = r.pattern := eq_of_beq h
  have hr' : w &&& r'.mask = r'.pattern := eq_of_beq h'
  rw [← hr, ← hr', BitVec.and_assoc, BitVec.and_assoc, BitVec.and_comm r.mask]

theorem row_eq_of_holds {w : Word} {r r' : TableRow} (hr : r ∈ opcodeTable) (hr' : r' ∈ opcodeTable)
    (h : r.holds w = true) (h' : r'.holds w = true) : r = r' :=
  row_eq_of_patterns_agree r hr r' hr' (patterns_agree_of_holds h h')

/-- A list that holds at most one entry with a property finds that entry, wherever it stands. -/
theorem find?_eq_some_iff_of_unique {α : Type} {p : α → Bool} {l : List α} {a : α}
    (h : ∀ x ∈ l, ∀ y ∈ l, p x = true → p y = true → x = y) : l.find? p = some a ↔ a ∈ l ∧ p a = true := by
  constructor
  · exact fun ha => ⟨List.mem_of_find?_eq_some ha, List.find?_some ha⟩
  · rintro ⟨hmem, hp⟩
    obtain ⟨b, hb⟩ := Option.isSome_iff_exists.mp (List.find?_isSome.mpr ⟨a, hmem, hp⟩)
    rw [hb, h b (List.mem_of_find?_eq_some hb) a hmem (List.find?_some hb) hp]

/-- Settles O5: two rows that a word matches agree where both look, so they are one row; what a table with one matching
row finds depends on its rows alone, not on their order. -/
theorem tableOrderIsIrrelevant : Obligations.TableOrderIsIrrelevant := by
  refine ⟨fun w r hr r' hr' => row_eq_of_holds hr hr', fun table hperm w => congrArg _ (Option.ext fun r => ?_)⟩
  rw [find?_eq_some_iff_of_unique fun _ hx _ hy => row_eq_of_holds hx hy,
    find?_eq_some_iff_of_unique fun _ hx _ hy => row_eq_of_holds (hperm.subset hx) (hperm.subset hy),
    hperm.mem_iff]

/-! ### Fields outside a mask -/

/-- Two words that agree under a mask agree on every field that the mask covers. -/
theorem extract_eq_of_mask {w w' mask : Word} (h : w &&& mask = w' &&& mask) {start len : Nat}
    (hcovers : mask.extractLsb' start len = BitVec.allOnes len) :
    w.extractLsb' start len = w'.extractLsb' start len := by
  have hfield := congrArg (·.extractLsb' start len) h
  simpa only [BitVec.extractLsb'_and, hcovers, BitVec.and_allOnes] using hfield

/-- Under an opcode other than 0x00 the function code takes no part in selection. -/
theorem selectByFields_of_opcode_ne_zero {opcode : Code} (h : opcode ≠ 0x00#6) (funct funct' : Code) :
    selectByFields opcode funct = selectByFields opcode funct' := by
  unfold selectByFields
  rw [if_neg h, if_neg h]

end Sys2Proof

namespace Sys2Proof.Machine

/-- Under opcode 0x00 a word does what its function code says, on the registers it names: `shamt` reaches nothing. -/
theorem exec_decode_of_register_view {w w' : Word} (hopcode : (fields w).opcode = 0x00#6)
    (hopcode' : (fields w').opcode = 0x00#6) (hrs : (fields w).rs = (fields w').rs) (hrt : (fields w).rt = (fields w').rt)
    (hrd : (fields w).rd = (fields w').rd) (hfunct : (fields w).funct = (fields w').funct) (s : State) :
    exec (decode w) s = exec (decode w') s := by
  by_cases hmatched : (fields w).funct ∈ ([0x20#6, 0x24#6, 0x2A#6] : List Code)
  · have hcw := controlOf_registerRegister hopcode hmatched
    have hcw' : controlOf w' = controlOf w := by rw [controlOf, controlOf, hopcode, hopcode', hfunct]
    rw [exec_of_controlOf_registerRegister hcw, exec_of_controlOf_registerRegister (hcw'.trans hcw), hrs, hrt, hrd]
  · rw [(unmatched_is_noop (.inl ⟨hopcode, hmatched⟩)).2, (unmatched_is_noop (.inl ⟨hopcode', hfunct ▸ hmatched⟩)).2]

/-- Settles O7: each mask covers the fields that its words' selection and effect depend on. -/
theorem ignoredFieldsChangeNothing : Obligations.IgnoredFieldsChangeNothing := by
  refine ⟨fun w w' hopcode h => ?_, fun w w' hopcode h => ?_, fun w w' hopcode h => ?_⟩
  · have hop : (fields w).opcode = (fields w').opcode := extract_eq_of_mask h (by decide)
    have hfunct : (fields w).funct = (fields w').funct := extract_eq_of_mask h (by decide)
    refine ⟨by rw [select_eq_byFields, select_eq_byFields, hop, hfunct], ?_⟩
    exact exec_decode_of_register_view hopcode (hop ▸ hopcode) (extract_eq_of_mask h (by decide))
      (extract_eq_of_mask h (by decide)) (extract_eq_of_mask h (by decide)) hfunct
  · have hop : (fields w).opcode = (fields w').opcode := extract_eq_of_mask h (by decide)
    have hrt : (fields w).rt = (fields w').rt := extract_eq_of_mask h (by decide)
    have himm : (fields w).imm = (fields w').imm := extract_eq_of_mask h (by decide)
    have hsel : select w = some .lui := by rw [select_eq_byFields, hopcode]; rfl
    have hsel' : select w' = some .lui := by rw [select_eq_byFields, ← hop, hopcode]; rfl
    refine ⟨hsel.trans hsel'.symm, fun s => ?_⟩
    rw [decode_of_select_lui hsel, decode_of_select_lui hsel', exec_lui, exec_lui, hrt, himm]
  · have hop : (fields w).opcode = (fields w').opcode := extract_eq_of_mask h (by decide)
    rw [select_eq_byFields, select_eq_byFields, ← hop]
    exact selectByFields_of_opcode_ne_zero hopcode ..

end Sys2Proof.Machine
end

section
/-! PROOFS. Halting (60_exceptions.md sections 2 and 5, decisions D5 and D6): a cycle that raises a condition changes the
mark alone, the mark stays precise, and a halted machine does nothing more. -/

namespace Sys2Proof.Machine

/-! ### The halted machine -/

theorem step_of_not_running {s : State} (h : ¬s.Running) : step s = .next s := by
  obtain ⟨-, hstep⟩ | ⟨hrun, -⟩ | ⟨hrun, -⟩ := step_cases s
  · exact hstep
  · exact absurd hrun h
  · exact absurd hrun h

/-- Settles O44: by induction on the number of cycles, each of which gives the state back. -/
theorem haltIsAbsorbing : Obligations.HaltIsAbsorbing := by
  intro n s h
  induction n with
  | zero => exact run_zero s
  | succ n ih => rw [run_of_step (step_of_not_running h), ih]

/-! ### The cycle that halts -/

/-- A step that changes the mark starts from a running machine and is its halt. -/
theorem step_changes_mark {s t : State} (h : step s = .next t) (hmark : t.halted ≠ s.halted) :
    s.Running ∧ ∃ f, t = s.halt f := by
  have hrun : s.Running := by
    by_contra hhalted
    obtain rfl := Host.Outcome.next.inj ((step_of_not_running hhalted).symm.trans h)
    exact hmark rfl
  obtain ⟨f, hf⟩ : ∃ f, t.halted = some f := Option.ne_none_iff_exists'.mp fun hnone => hmark (hnone.trans hrun.symm)
  exact ⟨hrun, f, (step_raises hrun h hf).1⟩

/-- Settles O43: the changed mark comes from a halt, which sets the mark and nothing else. -/
theorem fatalCycleCommitsNothing : Obligations.FatalCycleCommitsNothing := fun _ _ => step_changes_mark

theorem State.fetch_ok_of_lt {s : State} (h : s.pc.toNat < s.params.image.length) : ∃ w, s.fetch = .ok w :=
  ⟨_, (State.fetchAt_ok_iff _ _ _).mpr (List.getElem?_eq_getElem h)⟩

theorem State.fetch_error_outside {s : State} {f : Fault} (h : s.fetch = .error f) :
    s.params.image.length ≤ s.pc.toNat := by
  by_contra hinside
  obtain ⟨w, hw⟩ := State.fetch_ok_of_lt (not_le.mp hinside)
  cases h.symm.trans hw

/-- A running machine whose pc is outside the image halts on its fetch. -/
theorem step_outside_image {s : State} (hrun : s.Running) (h : s.params.image.length ≤ s.pc.toNat) :
    step s = .next (s.halt (.fetchOutOfImage s.pc)) := by
  have hfetch : s.fetch = .error (.fetchOutOfImage s.pc) := State.fetchAt_outside h
  unfold step
  rw [show s.halted = none from hrun, hfetch]

/-- Settles O42: outside, `step_outside_image`; inside, the fetch delivers a word and a data access raises the other
condition (`step_raises`). -/
theorem fetchOutsideTheImageHalts : Obligations.FetchOutsideTheImageHalts := by
  refine fun s hrun => ⟨step_outside_image hrun, fun hinside t p h hmark => ?_⟩
  obtain ⟨-, hfetch | ⟨w, rs, rt, imm, -, -, -, hfault⟩⟩ := step_raises hrun h hmark
  · exact absurd (State.fetch_error_outside hfetch) (not_le.mpr hinside)
  · cases hfault

/-! ### What the mark says -/

theorem State.HaltPrecise.of_running {s : State} (h : s.Running) : s.HaltPrecise := by
  unfold State.HaltPrecise
  rw [show s.halted = none from h]
  trivial

/-- The mark of a failed fetch names the pc, which is outside the image. -/
theorem State.HaltPrecise.of_fetch_error {s : State} {f : Fault} (h : s.fetch = .error f) : (s.halt f).HaltPrecise := by
  obtain rfl := State.fetch_error h
  exact ⟨rfl, State.fetch_error_outside h⟩

/-- The mark of a data access beyond the bound names the address that the instruction at the pc forms. -/
theorem State.HaltPrecise.of_access {s : State} {w : Word} {rs rt : RegIdx} {imm : Imm} (hfetch : s.fetch = .ok w)
    (hacc : IsAccess (decode w) rs rt imm) (hbeyond : s.params.dmemWords ≤ (s.address rs imm).toNat) :
    (s.halt (.addressOutOfRange (s.address rs imm))).HaltPrecise :=
  ⟨hbeyond, w, rs, rt, imm, hfetch, hacc, rfl⟩

theorem step_keeps_haltPrecise {s t : State} (hs : s.HaltPrecise) (h : step s = .next t) : t.HaltPrecise := by
  by_cases hrun : s.Running
  · cases hmark : t.halted with
    | none => exact .of_running hmark
    | some f =>
      obtain ⟨rfl, hfetch | ⟨w, rs, rt, imm, hfetch, hacc, hbeyond, rfl⟩⟩ := step_raises hrun h hmark
      · exact .of_fetch_error hfetch
      · exact .of_access hfetch hacc hbeyond
  · obtain rfl := Host.Outcome.next.inj ((step_of_not_running hrun).symm.trans h)
    exact hs

/-- Settles O45: a halted machine keeps its mark, and the mark that a cycle sets is the condition it raised. -/
theorem haltMarkStaysPrecise : Obligations.HaltMarkStaysPrecise := fun _ _ => step_keeps_haltPrecise

end Sys2Proof.Machine
end

section
/-! PROOFS. The state invariant (10_state.md sections 2 and 5, 00_scope.md R10): every step keeps it, and reset and every
legally loaded machine meet it (70_reset_and_hazards.md sections 1 and 2, decision D12). -/

namespace Sys2Proof.Machine

/-! ### The step -/

theorem step_cellZero {s t : State} (h : step s = .next t) : t.regs[0] = s.regs[0] := by
  obtain ⟨m, rfl⟩ | ⟨w, -, -, rfl⟩ := step_marks_or_commits h
  · rfl
  · exact State.commit_cellZero ..

theorem step_keeps_dmem_wf {s t : State} (hs : s.dmem.wf = true) (h : step s = .next t) : t.dmem.wf = true := by
  obtain hkept | ⟨a, v, -, hwrite⟩ := step_dmem h
  · rwa [hkept]
  · rw [hwrite]
    exact Memory.write_wf hs

/-- Settles O46: part by part; the bound on the listed cells is the second half of `dataMemoryChangesOnlyBySw`. -/
theorem everyStepKeepsInv : Obligations.EveryStepKeepsInv := by
  rintro s t ⟨hzero, hwf, hbelow, hparams⟩ h
  exact ⟨(step_cellZero h).trans hzero, step_keeps_dmem_wf hwf h, dataMemoryChangesOnlyBySw.2 s t hbelow h,
    (step_params h).symm ▸ hparams⟩

/-! ### Cycle 0 -/

/-- Settles O47: reset lists no cell, has every register zero and runs. -/
theorem resetMeetsInv : Obligations.ResetMeetsInv :=
  ⟨⟨by decide, State.reset_dmem_wf, rfl, by decide⟩, .of_running rfl⟩

theorem Seeds.valid_iff (sd : Seeds) (p : Params) :
    Seeds.valid sd p = true ↔ Memory.wf sd.dmem = true ∧ Memory.below sd.dmem p.dmemWords = true :=
  Bool.and_eq_true_iff

/-- Settles O48: loading checks the parameters and the listed cells, writes zero behind register 0, and leaves the mark. -/
theorem bootMeetsInv : Obligations.BootMeetsInv := by
  intro p sd s hboot
  obtain ⟨⟨hparams, hseeds⟩, rfl⟩ := State.boot_eq_some_iff.mp hboot
  obtain ⟨hwf, hbelow⟩ := (Seeds.valid_iff sd p).mp hseeds
  exact ⟨⟨Vector.getElem_set_self .., hwf, hbelow, hparams⟩, .of_running (State.loaded_running p sd)⟩

/-- Only cell 0 of the seeded registers is replaced: register 0 cannot be seeded (R202). -/
theorem State.loaded_readReg (p : Params) (sd : Seeds) {i : RegIdx} (h : i ≠ 0#5) :
    (State.loaded p sd).readReg i = sd.regs[i.toNat]'i.isLt := by
  have hcell : i.toNat ≠ 0 := fun h0 => h (BitVec.eq_of_toNat_eq h0)
  unfold State.readReg State.loaded
  rw [if_neg h]
  exact Vector.getElem_set_ne (by decide) i.isLt hcell.symm

theorem Memory.lt_of_below {m : Memory} {n : Nat} {e : Nat × Word} (h : m.below n = true) (he : e ∈ m) : e.1 < n :=
  of_decide_eq_true (List.all_eq_true.mp h e he)

/-- Settles O51: a loaded machine is the reset state with the seeds in place, and its seeds are all below the bound. -/
theorem seedsReplaceResetValues : Obligations.SeedsReplaceResetValues := by
  refine ⟨fun p sd s hboot => ?_, ?_⟩
  · obtain ⟨-, rfl⟩ := State.boot_eq_some_iff.mp hboot
    exact ⟨State.loaded_pc p sd, State.readReg_zero _, fun i => State.loaded_readReg p sd, fun _ => rfl,
      State.loaded_running p sd, State.loaded_params p sd⟩
  · rintro p sd ⟨e, he, hbeyond⟩
    rw [Option.eq_none_iff_forall_ne_some]
    intro s hboot
    obtain ⟨⟨-, hseeds⟩, -⟩ := State.boot_eq_some_iff.mp hboot
    obtain ⟨-, hbelow⟩ := (Seeds.valid_iff sd p).mp hseeds
    exact absurd (Memory.lt_of_below hbelow he) (not_lt.mpr hbeyond)

end Sys2Proof.Machine
end

section
/-! PROOFS. The control word as a function of the selected row (40_datapath.md sections 3 and 7): facts about the table by
going through its ten outcomes, and the register write port it steers. -/

namespace Sys2Proof.Machine

/-! ### The ten outcomes of selection -/

/-- What the opcode map can answer: one of its nine rows, or none. -/
def selections : List (Option Selection) := none :: opcodeTable.map fun r => some r.selects

theorem mem_selections (sel : Option Selection) : sel ∈ selections := by
  cases sel with
  | none => decide
  | some sel => cases sel <;> decide

/-- A property of selections that can be decided is checked on each of the ten. -/
theorem forall_selection {P : Option Selection → Prop} [DecidablePred P] (h : ∀ sel ∈ selections, P sel)
    (sel : Option Selection) : P sel :=
  h sel (mem_selections sel)

/-- Every outcome is that of some pair of codes. -/
theorem exists_codes_of_selection (sel : Option Selection) : ∃ opcode funct, selectByFields opcode funct = sel := by
  cases sel with
  | none => exact ⟨0x3F#6, 0x00#6, rfl⟩
  | some sel =>
    cases sel with
    | add => exact ⟨0x00#6, 0x20#6, rfl⟩
    | and => exact ⟨0x00#6, 0x24#6, rfl⟩
    | slt => exact ⟨0x00#6, 0x2A#6, rfl⟩
    | beq => exact ⟨0x04#6, 0x00#6, rfl⟩
    | addi => exact ⟨0x08#6, 0x00#6, rfl⟩
    | ori => exact ⟨0x0D#6, 0x00#6, rfl⟩
    | lui => exact ⟨0x0F#6, 0x00#6, rfl⟩
    | lw => exact ⟨0x23#6, 0x00#6, rfl⟩
    | sw => exact ⟨0x2B#6, 0x00#6, rfl⟩

/-- The control unit follows the selection on every pair of codes, since every pair stands in some word. -/
theorem controlUnit_eq_controlFor (opcode funct : Code) :
    controlUnit opcode funct = controlFor (selectByFields opcode funct) := by
  have hfunct : (0#10 ++ funct).extractLsb' 0 6 = funct := BitVec.extractLsb'_append_eq_right
  have hword := controlOf_eq_controlFor (encodeI opcode 0#5 0#5 (0#10 ++ funct))
  rwa [controlOf, select_encodeI, fields_encodeI, hfunct] at hword

/-! ### Facts about the table -/

theorem controlFor_not_read_and_write :
    ∀ sel, ¬((controlFor sel).memRead = true ∧ (controlFor sel).memWrite = true) :=
  forall_selection (by decide)

theorem controlFor_branch : ∀ sel, (controlFor sel).branch = true → (controlFor sel).aluOp = .equal :=
  forall_selection (by decide)

theorem controlFor_equal : ∀ sel, (controlFor sel).aluOp = .equal → sel = some .beq :=
  forall_selection (by decide)

theorem controlFor_memRead : ∀ sel, (controlFor sel).memRead = true → (controlFor sel).regWrite = true :=
  forall_selection (by decide)

theorem controlFor_memWrite_iff : ∀ sel, (controlFor sel).memWrite = true ↔ sel = some .sw :=
  forall_selection (by decide)

theorem controlFor_destIsRd_iff :
    ∀ sel, (controlFor sel).destIsRd = true ↔ sel ∈ ([some .add, some .and, some .slt] : List (Option Selection)) :=
  forall_selection (by decide)

theorem controlFor_regWrite_iff : ∀ sel, (controlFor sel).regWrite = true ↔
    sel ∈ ([some .add, some .and, some .slt, some .addi, some .ori, some .lui, some .lw] : List (Option Selection)) :=
  forall_selection (by decide)

theorem controlFor_or : ∀ sel, (controlFor sel).aluOp = .or → (controlFor sel).aluSrc = .zeroExtendedImm :=
  forall_selection (by decide)

theorem controlFor_and_setLessThan : ∀ sel, (controlFor sel).aluOp = .and ∨ (controlFor sel).aluOp = .setLessThan →
    (controlFor sel).aluSrc = .register :=
  forall_selection (by decide)

/-- The three rows that are chosen by `funct` have opcode 0x00. -/
theorem opcode_zero_of_funct_row {opcode funct : Code}
    (h : selectByFields opcode funct ∈ ([some .add, some .and, some .slt] : List (Option Selection))) :
    opcode = 0x00#6 := by
  simp only [List.mem_cons, List.not_mem_nil, or_false] at h
  obtain h | h | h := h
  all_goals exact (fits_of_selectByFields h).1

/-- Settles O9: the table's facts are facts about the ten outcomes of selection, which have ten different control words. -/
theorem controlWordFacts : Obligations.ControlWordFacts := by
  refine ⟨fun opcode funct => ?_, selections.map controlFor, by decide, by decide, fun cw => ?_⟩
  · simp only [controlUnit_eq_controlFor]
    have hbeq (h : (controlFor (selectByFields opcode funct)).aluOp = .equal) : opcode = 0x04#6 :=
      fits_of_selectByFields (controlFor_equal _ h)
    refine ⟨controlFor_not_read_and_write _, fun h => ⟨controlFor_branch _ h, hbeq (controlFor_branch _ h)⟩, hbeq,
      controlFor_memRead _, fun h => ?_, fun h => opcode_zero_of_funct_row ((controlFor_destIsRd_iff _).mp h),
      controlFor_or _, controlFor_and_setLessThan _⟩
    rw [(controlFor_memWrite_iff _).mp h, controlFor]
  · simp only [List.mem_map, controlUnit_eq_controlFor]
    constructor
    · rintro ⟨sel, -, rfl⟩
      obtain ⟨opcode, funct, rfl⟩ := exists_codes_of_selection sel
      exact ⟨opcode, funct, rfl⟩
    · rintro ⟨opcode, funct, rfl⟩
      exact ⟨_, mem_selections _, rfl⟩

/-! ### The register write port -/

/-- A cycle that executes a word and does not halt commits what the datapath stages for the word. -/
theorem step_eq_commit_stagedBy {s t : State} {w : Word} (hexec : Executes s w) (h : step s = .next t)
    (hrun : t.Running) : t = s.commit (s.stagedBy w) := by
  rw [step_of_executes hexec] at h
  obtain ⟨-, rfl⟩ | ⟨f, rfl⟩ := exec_commits_or_halts h
  · rw [State.stagedBy_eq_stagedOf]
  · cases hrun

theorem State.commit_stagedBy_readReg (s : State) (w : Word) (i : RegIdx) :
    (s.commit (s.stagedBy w)).readReg i =
      if (controlOf w).regWrite = true ∧ i = destReg (controlOf w) (fields w) ∧ i ≠ 0#5 then s.wdataOf w
      else s.readReg i := by
  rw [State.commit_readReg, State.stagedBy]
  by_cases hwrite : (controlOf w).regWrite = true
  · simp [hwrite]
  · simp [hwrite]

/-- Settles O31: the committed register write is the one of `State.stagedBy`; which rows write, and where, are facts about
the table. -/
theorem registerWritePort : Obligations.RegisterWritePort := by
  refine ⟨fun s t w hexec h hrun i => ?_, fun w => ?_, fun w _ => ?_⟩
  · rw [step_eq_commit_stagedBy hexec h hrun, State.commit_stagedBy_readReg]
  · rw [controlOf_eq_controlFor]
    exact controlFor_regWrite_iff _
  · rw [controlOf_eq_controlFor, destReg]
    simp only [controlFor_destIsRd_iff]

end Sys2Proof.Machine
end

section
/-! PROOFS. The store and the hazards (43_load_store.md R141, 20_memory.md section 2, 70_reset_and_hazards.md section 3): the
commit part by part, what a `sw` leaves, how long a stored value stays, and what the very next cycle sees. -/

namespace Sys2Proof.Machine

/-! ### The commit -/

/-- A register write and a memory write touch different elements. -/
theorem State.applyReg_applyMem_comm (s : State) (reg : Option (RegIdx × Word)) (mem : Option (Word × Word)) :
    (s.applyReg reg).applyMem mem = (s.applyMem mem).applyReg reg := by
  cases reg with
  | none => rfl
  | some c =>
    cases mem with
    | none => rfl
    | some e =>
      simp only [State.applyReg, State.applyMem, State.writeReg]
      split <;> rfl

/-- Settles O40: each part of the commit has its law. -/
theorem commitIsOrderFree : Obligations.CommitIsOrderFree := fun s st =>
  ⟨s.applyReg_applyMem_comm st.reg st.mem, s.commit_readReg st, s.commit_read st, s.commit_pc st,
    s.commit_halted st, s.commit_params st⟩

/-! ### The store -/

/-- A `sw` in range leaves `x[rt]` in the cell at its address (decision D8). -/
theorem read_of_exec_sw {rs rt : RegIdx} {imm : Imm} {s t : State}
    (hlt : (s.address rs imm).toNat < s.params.dmemWords) (h : exec (.sw rs rt imm) s = .next t) :
    t.dmem.read (s.address rs imm).toNat = s.readReg rt := by
  obtain rfl := Host.Outcome.next.inj ((exec_sw_inRange hlt).symm.trans h)
  rw [State.commit_read]
  exact if_pos rfl

/-- Settles O21: the row selects `sw`, whose commit in range writes the one cell; beyond the bound it halts. -/
theorem swEffect : Obligations.SwEffect := by
  refine ⟨rowMeans_of_select (fun _ => select_of_opcode_row (opcode := 0x2B#6) rfl) fun _ => decode_of_select_sw, ?_⟩
  intro rs rt imm s
  refine ⟨s.address_toNat rs imm, fun hlt => ?_, exec_sw_outside⟩
  have hexec := exec_sw_inRange (rt := rt) hlt
  exact ⟨_, hexec, read_of_exec_sw hlt hexec, rfl, s.commit_readReg _, exec_sw_memKeptBut hexec,
    State.commit_halted .., State.commit_params ..⟩

/-! ### The round trip -/

theorem read_of_exec_lw {rs rt : RegIdx} {imm : Imm} {s t : State} (hrt : rt ≠ 0#5)
    (hlt : (s.address rs imm).toNat < s.params.dmemWords) (h : exec (.lw rs rt imm) s = .next t) :
    t.readReg rt = s.dmem.read (s.address rs imm).toNat :=
  readReg_dest_of_exec hrt (exec_lw_inRange hlt) h

theorem step_keeps_cell {s t : State} {a : Nat} (hstore : ¬StoresTo s a) (h : step s = .next t) :
    t.dmem.read a = s.dmem.read a := by
  by_contra hne
  exact hstore (dataMemoryChangesOnlyBySw.1 s t a h hne).1

/-- A cell to which no cycle of a run stores reads at its end as at its beginning. -/
theorem run_keeps_cell {a n : Nat} : ∀ {s t : State}, core.run n s = .next t →
    (∀ k < n, ∀ x : State, core.run k s = .next x → ¬StoresTo x a) → t.dmem.read a = s.dmem.read a := by
  induction n with
  | zero =>
    intro s t h _
    obtain rfl := Host.Outcome.next.inj ((run_zero s).symm.trans h)
    rfl
  | succ n ih =>
    intro s t h hstore
    obtain ⟨u, hu⟩ := step_total s
    rw [run_of_step hu] at h
    have hrest : ∀ k < n, ∀ x : State, core.run k u = .next x → ¬StoresTo x a :=
      fun k hk x hx => hstore (k + 1) (Nat.succ_lt_succ hk) x ((run_of_step hu k).trans hx)
    rw [ih h hrest, step_keeps_cell (hstore 0 n.succ_pos s (run_zero s)) hu]

theorem exec_params {i : Instr} {s t : State} (h : exec i s = .next t) : t.params = s.params := by
  obtain ⟨-, rfl⟩ | ⟨f, rfl⟩ := exec_commits_or_halts h
  · exact State.commit_params ..
  · rfl

/-- Settles O35: the `sw` leaves the value in its cell, the run keeps the cell and the bound, the `lw` reads the cell. -/
theorem storeThenLoadRoundTrip : Obligations.StoreThenLoadRoundTrip := by
  constructor
  · intro w
    rw [controlOf_eq_controlFor]
    exact controlFor_memWrite_iff _
  · intro s t u v n rs rt rs' rt' imm imm' hlt hsw hrun hstore haddr hrt' hlw
    have hparams : State.params u = s.params := (instructionMemoryIsConstant n t u hrun).1.trans (exec_params hsw)
    have hlt' : (State.address u rs' imm').toNat < (State.params u).dmemWords := by rwa [haddr, hparams]
    calc v.readReg rt' = Memory.read (State.dmem u) (State.address u rs' imm').toNat := read_of_exec_lw hrt' hlt' hlw
      _ = Memory.read (State.dmem u) (s.address rs imm).toNat := by rw [haddr]
      _ = t.dmem.read (s.address rs imm).toNat := run_keeps_cell hrun hstore
      _ = s.readReg rt := read_of_exec_sw hlt hsw

/-! ### The next cycle -/

/-- A taken branch changes the pc alone. -/
theorem step_of_taken {s : State} {w : Word} {imm : Imm} (hexec : Executes s w) (htaken : IsTaken (decode w) s imm) :
    step s = .next { s with pc := s.pc + 1#32 + sext32 imm } := by
  obtain ⟨rs, rt, hbeq, heq⟩ := htaken
  rw [step_of_executes hexec, hbeq, exec_beq, State.commit_pcOnly, (aluEqual_iff _ _).mpr heq, nextPc_taken]

/-- Settles O37: the taken branch keeps the machine running and the image, so the target's word is next. -/
theorem takenBranchHasNoDelaySlot : Obligations.TakenBranchHasNoDelaySlot := by
  intro s w w' imm hexec htaken hfetch
  exact ⟨_, step_of_taken hexec htaken, rfl, step_of_executes ⟨hexec.1, hfetch⟩⟩

/-- Settles O38: what an instruction stages is computed in the state before it, for the destination's old value too. -/
theorem readsPrecedeWrites : Obligations.ReadsPrecedeWrites := by
  constructor
  · intro w
    rw [controlOf_eq_controlFor]
    exact controlFor_not_read_and_write _
  · intro r shamt imm s t hr
    rw [← State.address_toNat]
    refine ⟨fun h => ?_, fun h => ?_, fun hlt => ⟨read_of_exec_lw hr hlt, read_of_exec_sw hlt⟩⟩
    · rw [readReg_dest_of_exec hr (exec_add r r r shamt s) h, aluAdd_toNat, ← two_mul]
    · rw [readReg_dest_of_exec hr (exec_addi r r imm s) h]
      rfl

/-- The word at the committed pc is executed next, in the committed state: its image and its mark are as before. -/
theorem step_after_commit {s : State} {st : Staged} {w' : Word} (hrun : s.Running)
    (hfetch : s.fetchAt st.nextPc = .ok w') : step (s.commit st) = exec (decode w') (s.commit st) :=
  step_of_executes ⟨(s.commit_halted st).trans hrun, (State.fetchAt_congr (s.commit_params st) _).trans hfetch⟩

/-- Settles O39: the access in range commits, and the next word is executed in the committed state. -/
theorem noLoadDelay : Obligations.NoLoadDelay := by
  intro s w w' rs rt imm hexec hfetch hlt
  refine ⟨fun hlw hrt => ?_, fun hsw => ?_⟩
  · have hcommit := exec_lw_inRange (rt := rt) hlt
    refine ⟨_, ?_, read_of_exec_lw hrt hlt hcommit, step_after_commit hexec.1 hfetch⟩
    rw [step_of_executes hexec, hlw, hcommit]
  · have hcommit := exec_sw_inRange (rt := rt) hlt
    refine ⟨_, ?_, read_of_exec_sw hlt hcommit, step_after_commit hexec.1 hfetch⟩
    rw [step_of_executes hexec, hsw, hcommit]

end Sys2Proof.Machine
end

section
/-! PROOFS. Interfaces and runs (40_datapath.md section 10, 70_reset_and_hazards.md section 5): the inspection interface, the
diagnostic output, the fixed points of the step, and code without branches up to the end of the image. -/

namespace Sys2Proof.Machine

/-! ### Interfaces -/

/-- Settles O52: both reads are defined up to their bound, and there they read the state. -/
theorem inspectionReadsTheState : Obligations.InspectionReadsTheState := by
  refine fun s => ⟨fun i => ?_, ?_, fun n hn => ?_, fun a ha => ?_, fun a ha => ?_⟩
  · rw [State.readRegister, if_pos (Nat.le_of_lt_succ i.isLt), BitVec.ofNat_toNat, BitVec.setWidth_eq]
  · rw [State.readRegister, if_pos (Nat.zero_le 31)]
    exact congrArg some s.readReg_zero
  · rw [State.readRegister, if_neg (Nat.not_le.mpr hn)]
  · rw [State.readMemory, if_pos ha]
  · rw [State.readMemory, if_neg (Nat.not_lt.mpr ha)]

/-- The diagnostic of a machine that executes a word. -/
theorem State.unsupportedSignal_of_executes {s : State} {w : Word} (h : Executes s w) :
    s.unsupportedSignal = unmatched w := by
  obtain ⟨hrun, hfetch⟩ := h
  unfold State.unsupportedSignal
  rw [show s.halted = none from hrun, hfetch]

/-- The diagnostic is silent in a cycle that executes nothing. -/
theorem State.executes_of_unsupportedSignal {s : State} (h : s.unsupportedSignal = true) : ∃ w, Executes s w := by
  unfold State.unsupportedSignal at h
  split at h
  case h_1 => cases h
  case h_2 hrun =>
    split at h
    case h_1 => cases h
    case h_2 w hfetch => exact ⟨w, hrun, hfetch⟩

theorem State.unsupportedSignal_iff (s : State) :
    s.unsupportedSignal = true ↔ ∃ w, Executes s w ∧ UnmatchedByFields w := by
  constructor
  · intro h
    obtain ⟨w, hexec⟩ := State.executes_of_unsupportedSignal h
    rw [State.unsupportedSignal_of_executes hexec, unmatched_iff_byFields] at h
    exact ⟨w, hexec, h⟩
  · rintro ⟨w, hexec, hw⟩
    rw [State.unsupportedSignal_of_executes hexec, unmatched_iff_byFields]
    exact hw

/-- Settles O53: the signal by its condition, and what an unmatched word does by `unmatched_is_noop`. -/
theorem unsupportedSignalMarksNoOps : Obligations.UnsupportedSignalMarksNoOps := by
  refine fun s => ⟨s.unsupportedSignal_iff, fun h => ?_⟩
  obtain ⟨w, hexec, hw⟩ := s.unsupportedSignal_iff.mp h
  rw [step_of_executes hexec, (unmatched_is_noop hw).2]

/-! ### Fixed points -/

/-- Only displacement -1 leads a taken branch back to itself. -/
theorem imm_eq_of_target_eq_self {p : Word} {imm : Imm} (h : p + 1#32 + sext32 imm = p) : imm = 0xFFFF#16 := by
  have hback : sext32 imm = sext32 0xFFFF#16 := add_left_cancel (h.trans (nextPc_self p).symm)
  apply BitVec.eq_of_toInt_eq
  rw [← sext32_toInt, hback, sext32_toInt]

/-- A running machine that a step leaves as it was executes a taken branch to itself: every other cycle that commits moves
the pc, and a halt sets the mark. -/
theorem self_branch_of_fixed {s : State} (hrun : s.Running) (h : step s = .next s) :
    ∃ w, Executes s w ∧ IsTaken (decode w) s 0xFFFF#16 := by
  obtain ⟨⟨f, hf⟩, -⟩ | ⟨-, f, -, hhalt⟩ | ⟨-, w, hfetch, -⟩ := step_cases s
  · cases hrun.symm.trans hf
  · have hs := Host.Outcome.next.inj (h.symm.trans hhalt)
    cases hrun.symm.trans (congrArg State.halted hs)
  · have hpc := step_pc_of_executes ⟨hrun, hfetch⟩ h hrun
    by_cases htaken : ∃ imm, IsTaken (decode w) s imm
    · obtain ⟨imm, htaken⟩ := htaken
      rw [pcAfter_of_taken htaken] at hpc
      exact ⟨w, ⟨hrun, hfetch⟩, imm_eq_of_target_eq_self hpc.symm ▸ htaken⟩
    · rw [pcAfter_of_not_taken (not_exists.mp htaken)] at hpc
      exact absurd (add_eq_left.mp hpc.symm) (by decide)

/-- Settles O54: a halted machine and a taken self-branch give the state back; no other cycle does (`self_branch_of_fixed`). -/
theorem fixedPointsAreSelfBranchOrHalt : Obligations.FixedPointsAreSelfBranchOrHalt := by
  intro s
  constructor
  · intro h
    by_cases hrun : s.Running
    · exact .inr (self_branch_of_fixed hrun h)
    · exact .inl hrun
  · rintro (hhalted | ⟨w, hexec, htaken⟩)
    · exact step_of_not_running hhalted
    · rw [step_of_taken hexec htaken, ← nextPc_taken, nextPc_self]

/-! ### Straight-line code -/

/-- From address `p` on, no word of the image branches and none makes an access that could be out of range. -/
def StraightFrom (params : Params) (p : Nat) : Prop :=
  ∀ k w, p ≤ k → params.image[k]? = some w →
    (∀ rs rt imm, decode w ≠ .beq rs rt imm) ∧
    (params.dmemWords = 2 ^ 32 ∨ ∀ rs rt imm, ¬IsAccess (decode w) rs rt imm)

theorem StraightFrom.mono {params : Params} {p q : Nat} (h : StraightFrom params p) (hpq : p ≤ q) :
    StraightFrom params q :=
  fun k w hk => h k w (hpq.trans hk)

/-- A word of straight-line code commits, keeps the machine running and moves the pc by one, which does not wrap inside an
image shorter than 2^32 words. -/
theorem step_of_straight {s : State} (hrun : s.Running) (hinside : s.pc.toNat < s.params.image.length)
    (hshort : s.params.image.length < 2 ^ 32) (hstraight : StraightFrom s.params s.pc.toNat) :
    ∃ t, step s = .next t ∧ t.Running ∧ t.pc.toNat = s.pc.toNat + 1 := by
  obtain ⟨w, hfetch⟩ := State.fetch_ok_of_lt hinside
  obtain ⟨hbeq, haccess⟩ := hstraight _ w le_rfl ((State.fetchAt_ok_iff ..).mp hfetch)
  have hin : ∀ rs rt imm, IsAccess (decode w) rs rt imm → (s.address rs imm).toNat < s.params.dmemWords := by
    intro rs rt imm hacc
    obtain hfull | hnone := haccess
    · exact hfull ▸ (s.address rs imm).isLt
    · exact absurd hacc (hnone rs rt imm)
  have hpc : pcAfter (decode w) s = s.pc + 1#32 :=
    pcAfter_of_not_taken fun imm ⟨rs, rt, hdecode, _⟩ => hbeq rs rt imm hdecode
  refine ⟨_, (step_of_executes ⟨hrun, hfetch⟩).trans (exec_of_no_access_outside hin), (s.commit_halted _).trans hrun, ?_⟩
  rw [State.commit_pc, stagedOf, hpc, BitVec.toNat_add, BitVec.toNat_ofNat]
  omega

/-- Settles O55: by induction on the words left, each of which is one `step_of_straight`; past the last, the fetch halts. -/
theorem straightLineRunsToTheEnd : Obligations.StraightLineRunsToTheEnd := by
  intro s n
  induction n generalizing s with
  | zero =>
    intro hrun hend _ _
    refine ⟨s, run_zero s, hrun, hend, ?_⟩
    rw [run_of_step (step_outside_image hrun hend.ge)]
    exact run_zero _
  | succ n ih =>
    intro hrun hend hshort hstraight
    obtain ⟨u, hu, hurun, hupc⟩ := step_of_straight hrun (by omega) hshort hstraight
    have hparams := step_params hu
    obtain ⟨t, ht⟩ := ih u hurun (by rw [hparams]; omega) (hparams ▸ hshort)
      (hparams ▸ StraightFrom.mono hstraight (by omega))
    rw [run_of_step hu, run_of_step hu]
    exact ⟨t, by rwa [hparams] at ht⟩

end Sys2Proof.Machine
end
